-- ==== Sys2Proof/Word.lean ====
section
/-! DEFINITION. The widths of the CB32 transducer's values (spec/00_scope.md R5, R7; spec/10_state.md R20;
spec/20_memory.md R40; spec/30_encoding.md R71, R74). Every value of the block is an unsigned bit vector or a
natural number. -/

namespace Sys2Proof

/-- A byte: 8 bits (R5). Message bytes, character codes and the `data` field are bytes. -/
abbrev Byte := BitVec 8

/-- A symbol value: 5 bits, "an integer in [0,31]" that is "Never constructed outside the valid range" (R5, R13). -/
abbrev Symbol := BitVec 5

/-- An entry of the decode table `DECTAB`: 6 bits (R44). -/
abbrev Entry := BitVec 6

/-- A command word: 12 bits (R70, R71). -/
abbrev CommandWord := BitVec 12

/-- A token word: 10 bits (R74). -/
abbrev TokenWord := BitVec 10

/-- The 12-bit temporary `W` of `ENC.BYTE` and `DEC.CHAR` (R112, R132); it is not state. -/
abbrev Window := BitVec 12

end Sys2Proof
end

