-- ==== Sys2Proof/Config.lean ====
section
/-! DEFINITION. What is fixed for every instance of the block (spec/00_scope.md R5, R6). The spec leaves no value of an
operation open (spec/93_implementation_defined.md, its summary: "There is no `stuck` case and no `any value` output"), so
this file holds no free value. The three open parameters of spec/92_eei_decisions.md (`LAT(op)`, `N_INST`,
`PORT_PROTOCOL`) are read by no rule: `N_INST` is the length of the list of Machine/Instances.lean, the other two are left
out (notes/assumptions/6.md). -/

namespace Sys2Proof.Config

/-- Width of a symbol value (R5). -/
abbrev symbolBits : Nat := 5

/-- Width of a byte (R5). -/
abbrev byteBits : Nat := 8

/-- The canonical alphabet, the string of R13 and R42. -/
def canonicalAlphabet : List Char :=
  ['0', '1', '2', '3', '4', '5', '6', '7', '8', '9', 'A', 'B', 'C', 'D', 'E', 'F'] ++
  ['G', 'H', 'J', 'K', 'M', 'N', 'P', 'Q', 'R', 'S', 'T', 'V', 'W', 'X', 'Y', 'Z']

/-- The code of a character: its ASCII code in 8 bits (R41; spec decision D4; notes/assumptions/7.md). -/
def charCode (c : Char) : Byte := BitVec.ofNat 8 c.toNat

end Sys2Proof.Config
end

