-- ==== Sys2Proof/Syntax.lean ====
section
/-! DEFINITION. The commands of the block, the fields of a command word, the tokens it returns, and what its environment
can do to it (spec/30_encoding.md R70 to R76; spec/70_reset_and_hazards.md R200). -/

namespace Sys2Proof

/-- The eight operations of R76, one constructor per row of spec/opcode_table.json. The operand types are the operand
widths of R73, so that every term of this type is a legal command. -/
inductive Instr where
  /-- `ENC.START` (R110). -/
  | encStart
  /-- `ENC.BYTE b` (R112). -/
  | encByte (b : Byte)
  /-- `ENC.END` (R116). -/
  | encEnd
  /-- `LUT.S2C v` (R100). -/
  | lutS2c (v : Symbol)
  /-- `DEC.START` (R130). -/
  | decStart
  /-- `DEC.CHAR c` (R132, R133). -/
  | decChar (c : Byte)
  /-- `DEC.END` (R136, R137). -/
  | decEnd
  /-- `LUT.C2S b` (R102). -/
  | lutC2s (b : Byte)
  deriving DecidableEq, Repr

/-- The `unit` bit of a command word (R71). -/
inductive Side where
  /-- `unit = 0`: encode unit and `ALPHA`. -/
  | enc
  /-- `unit = 1`: decode unit and `DECTAB`. -/
  | dec
  deriving DecidableEq, Repr

/-- The `fn` field of a command word (R71). -/
inductive Fn where
  /-- `fn = 0`: `START`. -/
  | start
  /-- `fn = 1`: `BYTE` or `CHAR`. -/
  | data
  /-- `fn = 2`: `END`. -/
  | finish
  /-- `fn = 3`: `S2C` or `C2S`. -/
  | lookup
  deriving DecidableEq, Repr

/-- The fields of a command word in format `C` (R71), before any of them is checked. -/
structure Fields where
  /-- `cmd[11]` -/
  rsv : Bool
  /-- `cmd[10]` -/
  side : Side
  /-- `cmd[9:8]` -/
  fn : Fn
  /-- `cmd[7:0]` -/
  data : Byte
  deriving DecidableEq, Repr

/-- Why a command word is reserved (R80, R81). -/
inductive ReservedReason where
  /-- `cmd[11] = 1` (R80). -/
  | rsvSet
  /-- `ENC.START`, `ENC.END`, `DEC.START` or `DEC.END` with `data != 0x00` (R81). -/
  | dataNotZero
  /-- `LUT.S2C` with `data[7:5] != 0b000` (R81). -/
  | symbolOutOfRange
  deriving DecidableEq, Repr

/-- What decoding a command word answers (R72): an operation with its operand, or the verdict `reserved`. -/
inductive Verdict where
  | legal (i : Instr)
  | reserved (why : ReservedReason)
  deriving DecidableEq, Repr

/-- The kind of a token (R74). -/
inductive TokenKind where
  /-- `0b00`: a character of the encoder's output. -/
  | char
  /-- `0b01`: a decoded byte. -/
  | byte
  /-- `0b10`: the offending byte of an InvalidSymbol error. -/
  | err
  /-- `0b11`: the result of a table lookup. -/
  | lut
  deriving DecidableEq, Repr

/-- A token: its kind and its 8 data bits (R74). -/
structure Token where
  kind : TokenKind
  data : Byte
  deriving DecidableEq, Repr

/-- What the environment does to one instance: it issues a command word (R70) or it resets the instance (R200: "Reset is an
event from the environment, separate from the command stream"). -/
inductive Event where
  | command (w : CommandWord)
  | reset
  deriving DecidableEq, Repr

end Sys2Proof
end

