-- ==== Sys2Proof/WellFormed.lean ====
section
/-! DEFINITION. The constraints a command word must meet to be one of the eight operations (spec/30_encoding.md R73, R80,
R81), stated on its fields. Once they hold, the operand types of `Instr` carry them, and no term of `Instr` breaks one. The
decoder's own checks, which also name what is wrong, are `Fields.defect` of Decode.lean; Laws/Decode.lean proves that the
two agree. -/

namespace Sys2Proof

/-- The operations without an operand: `START` and `END` of either unit (R73). -/
def Fields.operandless (f : Fields) : Bool := f.fn == .start || f.fn == .finish

/-- `LUT.S2C`, whose operand is a symbol value (R73). -/
def Fields.takesSymbol (f : Fields) : Bool := f.side == .enc && f.fn == .lookup

/-- `rsv = 0` (R80); `data = 0x00` where there is no operand and `data[7:5] = 0b000` where the operand is a symbol value
(R81). -/
def Fields.wellFormed (f : Fields) : Bool :=
  !f.rsv && (!f.operandless || f.data == 0x00#8) && (!f.takesSymbol || f.data.extractLsb 7 5 == 0b000#3)

end Sys2Proof
end

