-- ==== Sys2Proof/Decode.lean ====
section
/-! DEFINITION. From a command word to an operation and back (spec/30_encoding.md R71 to R76, R80, R81), the opcode table's
rows, and the word of a token (R74). Decoding reads no register and has no other mode (R72). -/

namespace Sys2Proof

/-- `cmd[10]` (R71). -/
def Side.ofBit (x : Bool) : Side := if x then .dec else .enc

/-- `cmd[9:8]` (R71). -/
def Fn.ofBits (x : BitVec 2) : Fn :=
  if x = 0b00#2 then .start
  else if x = 0b01#2 then .data
  else if x = 0b10#2 then .finish
  else .lookup

/-- The fields of a command word (R71). -/
def fieldsOf (w : CommandWord) : Fields where
  rsv := w.getLsbD 11
  side := Side.ofBit (w.getLsbD 10)
  fn := Fn.ofBits (w.extractLsb 9 8)
  data := w.extractLsb 7 0

/-- The operation selected by `unit` and `fn`, with its operand taken from `data` (R73, R76). -/
def Fields.operation (f : Fields) : Instr :=
  match f.side, f.fn with
  | .enc, .start  => .encStart
  | .enc, .data   => .encByte f.data
  | .enc, .finish => .encEnd
  | .enc, .lookup => .lutS2c (f.data.extractLsb 4 0)
  | .dec, .start  => .decStart
  | .dec, .data   => .decChar f.data
  | .dec, .finish => .decEnd
  | .dec, .lookup => .lutC2s f.data

/-- The first constraint of R80 and R81 that the fields break, if any. The opcode is read first, then the `data`
constraint of the operation it selects (R72). -/
def Fields.defect (f : Fields) : Option ReservedReason :=
  if f.rsv then some .rsvSet
  else
    match f.side, f.fn with
    | .enc, .start  => if f.data = 0x00#8 then none else some .dataNotZero
    | .enc, .data   => none
    | .enc, .finish => if f.data = 0x00#8 then none else some .dataNotZero
    | .enc, .lookup => if f.data.extractLsb 7 5 = 0b000#3 then none else some .symbolOutOfRange
    | .dec, .start  => if f.data = 0x00#8 then none else some .dataNotZero
    | .dec, .data   => none
    | .dec, .finish => if f.data = 0x00#8 then none else some .dataNotZero
    | .dec, .lookup => none

/-- Decoding, a total function of the 4096 command words (R72). -/
def decode (w : CommandWord) : Verdict :=
  match (fieldsOf w).defect with
  | none => .legal (fieldsOf w).operation
  | some why => .reserved why

/-- The command word of an operation: the pattern `cmd[11:0]` of its row of R76. -/
def encode : Instr → CommandWord
  | .encStart  => 0b000000000000#12
  | .encByte b => 0b0001#4 ++ b
  | .encEnd    => 0b001000000000#12
  | .lutS2c v  => 0b0011000#7 ++ v
  | .decStart  => 0b010000000000#12
  | .decChar c => 0b0101#4 ++ c
  | .decEnd    => 0b011000000000#12
  | .lutC2s b  => 0b0111#4 ++ b

/-- One row of the opcode map (R76): a word `w` selects it when `w & mask = pattern` (the table's `match`). -/
structure Row where
  mnemonic : String
  pattern : CommandWord
  mask : CommandWord
  deriving DecidableEq, Repr

/-- `w & mask = match` (R76). -/
def Row.selects (r : Row) (w : CommandWord) : Bool := w &&& r.mask == r.pattern

/-- The row of an operation (R76). -/
def Instr.row : Instr → Row
  | .encStart  => ⟨"ENC.START", 0x000#12, 0xFFF#12⟩
  | .encByte _ => ⟨"ENC.BYTE", 0x100#12, 0xF00#12⟩
  | .encEnd    => ⟨"ENC.END", 0x200#12, 0xFFF#12⟩
  | .lutS2c _  => ⟨"LUT.S2C", 0x300#12, 0xFE0#12⟩
  | .decStart  => ⟨"DEC.START", 0x400#12, 0xFFF#12⟩
  | .decChar _ => ⟨"DEC.CHAR", 0x500#12, 0xF00#12⟩
  | .decEnd    => ⟨"DEC.END", 0x600#12, 0xFFF#12⟩
  | .lutC2s _  => ⟨"LUT.C2S", 0x700#12, 0xF00#12⟩

/-- The opcode map, in the order of R76. -/
def opcodeTable : List Row :=
  [Instr.encStart.row, (Instr.encByte 0).row, Instr.encEnd.row, (Instr.lutS2c 0).row,
   Instr.decStart.row, (Instr.decChar 0).row, Instr.decEnd.row, (Instr.lutC2s 0).row]

/-- The operations addressed to the encode unit (`unit = 0` and no lookup; spec/00_scope.md R14). -/
def Instr.isEnc : Instr → Bool
  | .encStart | .encByte _ | .encEnd => true
  | .decStart | .decChar _ | .decEnd | .lutS2c _ | .lutC2s _ => false

/-- The operations addressed to the decode unit (R14). -/
def Instr.isDec : Instr → Bool
  | .decStart | .decChar _ | .decEnd => true
  | .encStart | .encByte _ | .encEnd | .lutS2c _ | .lutC2s _ => false

/-- The two kind bits of a token word (R74). -/
def TokenKind.bits : TokenKind → BitVec 2
  | .char => 0b00#2
  | .byte => 0b01#2
  | .err  => 0b10#2
  | .lut  => 0b11#2

/-- The 10-bit word of a token: kind in `tok[9:8]`, data in `tok[7:0]` (R74). -/
def Token.word (t : Token) : TokenWord := t.kind.bits ++ t.data

/-- The command word that the low bits of a number stand for, `nbits` of them given and the rest 0. A number that needs more
than 12 bits is no command word; it stands as the reserved word `0x800` (R80), so that it is refused and never cut down to
a legal word (notes/assumptions/5.md). -/
def tableWord (nbits w : Nat) : CommandWord :=
  if w % 2 ^ nbits < 4096 then BitVec.ofNat 12 (w % 2 ^ nbits) else 0x800#12

/-- The operation the decoder reads from the bits `w`, numbered as spec/opcode_table.json numbers them. -/
def decodeTableWord (nbits w : Nat) : Option Instr :=
  match decode (tableWord nbits w) with
  | .legal i => some i
  | .reserved _ => none

end Sys2Proof
end

