-- ==== Sys2Proof/Machine/State.lean ====
section
/-! DEFINITION. The state of one instance of the block (spec/10_state.md R20 to R28, R33), with the two queues that tie it to
its environment, and the reasons a step can stop. -/

namespace Sys2Proof.Machine

/-- The six registers of R20, and the two ends of the command interface. -/
structure State where
  /-- `ECARRY`: the carry bits of the encode unit, oldest in bit 7, zero below the valid ones (R21). -/
  ecarry : BitVec 8
  /-- `ECNT`: the number of valid carry bits (R22). -/
  ecnt : BitVec 3
  /-- `DACC`: the buffered bits of the decode unit, oldest in bit 6, zero below the valid ones (R25). -/
  dacc : BitVec 7
  /-- `DCNT`: the number of valid buffered bits (R26). -/
  dcnt : BitVec 3
  /-- `DERR`: the 1-bit error flag of the decode unit, true for 1 (R27). -/
  derr : Bool
  /-- `DERRB`: the offending byte while `DERR` is 1, else `0x00` (R28). -/
  derrb : BitVec 8
  /-- The model's own: what the environment has issued and the block has not yet taken, next first
  (notes/assumptions/1.md). -/
  inputs : List Event
  /-- The model's own: every token the block has returned, first returned first (R11, R61; notes/assumptions/2.md). -/
  tokens : List Token
  deriving DecidableEq, Repr

/-- The block has no fault in the model's sense. Its one error, InvalidSymbol, is "a defined, deterministic outcome of the
hardware on legal input" (R188), so it is a next state and never stands here. No step raises a fault (safe). -/
inductive Fault where
  deriving DecidableEq, Repr

/-- Why a step gives no meaning (R188: "reserved for reserved command words and for unreachable states"). -/
inductive Refusal where
  /-- Raised by an arm of `exec` whose instruction has no meaning yet. No arm raises it. Safe. -/
  | notModelled (mnemonic : String)
  /-- Raised by `step` on a reserved command word (R80 to R82: "The model must refuse a reserved word"). Safe. -/
  | reservedWord (w : CommandWord) (why : ReservedReason)
  /-- Raised by `ENC.BYTE` and `ENC.END` when `ECARRY`, `ECNT` are a pair no command sequence reaches: `ECNT >= 5` or a
  non-zero fill bit (spec/92_eei_decisions.md D16; spec/93_implementation_defined.md U7). Safe. -/
  | unreachableEncodeState
  /-- Raised by `DEC.CHAR` and `DEC.END` when the decode registers are in a state no command sequence reaches: a non-zero
  fill bit of `DACC`, or `DERRB != 0x00` with `DERR = 0` (D16, U7). Safe. -/
  | unreachableDecodeState
  deriving DecidableEq, Repr

/-- After reset every register is zero (R33, R200). Nothing has been issued and nothing returned. -/
def State.reset : State where
  ecarry := 0x00#8
  ecnt := 0#3
  dacc := 0x00#7
  dcnt := 0#3
  derr := false
  derrb := 0x00#8
  inputs := []
  tokens := []

end Sys2Proof.Machine
end

