-- ==== Sys2Proof/Machine/Tables.lean ====
section
/-! DEFINITION. The two read-only tables of the block, its only memories (spec/20_memory.md R40, R42 to R48, R53, R54). They
are constants: no operation writes them and reset leaves them alone (R202). -/

namespace Sys2Proof.Machine

/-- The 32 entries of `ALPHA` in order (R43). -/
def alphaRom : List Byte :=
  [0x30#8, 0x31#8, 0x32#8, 0x33#8, 0x34#8, 0x35#8, 0x36#8, 0x37#8] ++
  [0x38#8, 0x39#8, 0x41#8, 0x42#8, 0x43#8, 0x44#8, 0x45#8, 0x46#8] ++
  [0x47#8, 0x48#8, 0x4A#8, 0x4B#8, 0x4D#8, 0x4E#8, 0x50#8, 0x51#8] ++
  [0x52#8, 0x53#8, 0x54#8, 0x56#8, 0x57#8, 0x58#8, 0x59#8, 0x5A#8]

/-- `ALPHA[v]`: the character of a symbol value (R10, R42). The list has an entry for each of the 32 indices
(`alphaRom_length`), so the default of `getD` is never read. -/
def alpha (v : Symbol) : Byte := alphaRom.getD v.toNat 0x00#8

/-- The 256 entries of `DECTAB` as the grid of R46: a row for each high digit of the byte, in it an entry for each low
digit. -/
def decTabRows : List (List Entry) :=
  List.replicate 3 (List.replicate 16 0x00#6) ++
  [[0x20#6, 0x21#6, 0x22#6, 0x23#6, 0x24#6, 0x25#6, 0x26#6, 0x27#6] ++
    [0x28#6, 0x29#6, 0x00#6, 0x00#6, 0x00#6, 0x00#6, 0x00#6, 0x00#6]] ++
  [[0x00#6, 0x2A#6, 0x2B#6, 0x2C#6, 0x2D#6, 0x2E#6, 0x2F#6, 0x30#6] ++
    [0x31#6, 0x21#6, 0x32#6, 0x33#6, 0x21#6, 0x34#6, 0x35#6, 0x20#6]] ++
  [[0x36#6, 0x37#6, 0x38#6, 0x39#6, 0x3A#6, 0x00#6, 0x3B#6, 0x3C#6] ++
    [0x3D#6, 0x3E#6, 0x3F#6, 0x00#6, 0x00#6, 0x00#6, 0x00#6, 0x00#6]] ++
  [[0x00#6, 0x2A#6, 0x2B#6, 0x2C#6, 0x2D#6, 0x2E#6, 0x2F#6, 0x30#6] ++
    [0x31#6, 0x21#6, 0x32#6, 0x33#6, 0x21#6, 0x34#6, 0x35#6, 0x20#6]] ++
  [[0x36#6, 0x37#6, 0x38#6, 0x39#6, 0x3A#6, 0x00#6, 0x3B#6, 0x3C#6] ++
    [0x3D#6, 0x3E#6, 0x3F#6, 0x00#6, 0x00#6, 0x00#6, 0x00#6, 0x00#6]] ++
  List.replicate 8 (List.replicate 16 0x00#6)

/-- `DECTAB[b]`: the entry of a byte (R10, R44). The grid has 16 rows of 16 entries (`decTabRows_shape`), so the defaults of
`getD` are never read. -/
def decTab (b : Byte) : Entry :=
  (decTabRows.getD (b.extractLsb 7 4).toNat []).getD (b.extractLsb 3 0).toNat 0x00#6

/-- `e[5]`, the valid bit of an entry (R44). -/
def entryValid (e : Entry) : Bool := e.getLsbD 5

/-- `e[4:0]`, the symbol value of a valid entry (R44). -/
def entryValue (e : Entry) : Symbol := e.extractLsb 4 0

end Sys2Proof.Machine
end

