-- ==== Sys2Proof/Machine/Flags.lean ====
section
/-! DEFINITION. The one flag of the block, `DERR` (spec/10_state.md R27): what sets it, and how the environment sees it. The
encode unit has no flag. -/

namespace Sys2Proof.Machine

/-- The condition of InvalidSymbol for a character: its entry of `DECTAB` has the valid bit 0 (R132, R180). -/
def invalidSymbol (c : Byte) : Bool := !entryValid (decTab c)

/-- The status output `DERR`, 1 bit, "the current values of the registers" at all times (spec/30_encoding.md R88). -/
def State.derrOut (s : State) : BitVec 1 := BitVec.ofBool s.derr

/-- The status output `DERRB`, 8 bits (R88). -/
def State.derrbOut (s : State) : Byte := s.derrb

end Sys2Proof.Machine
end

