-- ==== Sys2Proof/Machine/Operands.lean ====
section
/-! DEFINITION. The slices of the data path: the 12-bit temporary `W` of `ENC.BYTE` (spec/41_encode.md R112) and of `DEC.CHAR`
(spec/42_decode.md R132), what is cut from its top, and how it moves up. The older bit is always in the more significant
position (spec/20_memory.md R50). -/

namespace Sys2Proof.Machine

/-- `W = (ECARRY << 4) | (b << (4 - c))` (R112): the `c` carry bits, then the new byte. -/
def encWindow (carry : Byte) (c : Nat) (b : Byte) : Window :=
  (carry.setWidth 12 <<< 4) ||| (b.setWidth 12 <<< (4 - c))

/-- `W = (DACC << 5) | (v << (7 - n))` (R132): the `n` buffered bits, then the new symbol value. -/
def decWindow (acc : BitVec 7) (n : Nat) (v : Symbol) : Window :=
  (acc.setWidth 12 <<< 5) ||| (v.setWidth 12 <<< (7 - n))

/-- `W[11:7]`, the first complete group (R112). -/
def topSymbol (w : Window) : Symbol := w.extractLsb 11 7

/-- `W[11:4]`: the byte that `DEC.CHAR` emits (R132), and the carry that `ENC.BYTE` keeps (R112). -/
def topByte (w : Window) : Byte := w.extractLsb 11 4

/-- `W[11:5]`, the accumulator that `DEC.CHAR` keeps (R132). -/
def topBuffer (w : Window) : BitVec 7 := w.extractLsb 11 5

/-- `(W << 5)[11:0]` (R112). -/
def dropSymbol (w : Window) : Window := w <<< 5

/-- `(W << 8)[11:0]` (R132). -/
def dropByte (w : Window) : Window := w <<< 8

/-- `ECARRY[7:3]`: the carry bits followed by zero bits, the final group of a message (R116). -/
def finalSymbol (carry : Byte) : Symbol := carry.extractLsb 7 3

end Sys2Proof.Machine
end

