-- ==== Sys2Proof/Machine/Ops.lean ====
section
/-! DEFINITION. The named operations the meanings are written over: returning tokens, the registers of each unit, the states
an operation is specified on, the error entry and the way out of it, reset, and taking what the environment has issued. -/

namespace Sys2Proof.Machine

/-! ### Tokens -/

/-- `emit T(d)` (spec/00_scope.md R11): the token joins the end of what has been returned. -/
def State.emit (s : State) (k : TokenKind) (d : Byte) : State :=
  { s with tokens := s.tokens ++ [⟨k, d⟩] }

/-- One `CHAR` token for each symbol value, in order: the encoder's tokens carry characters (spec/30_encoding.md R75). -/
def State.emitSymbols (s : State) (vs : List Symbol) : State :=
  { s with tokens := s.tokens ++ vs.map fun v => ⟨.char, alpha v⟩ }

/-- One `BYTE` token for each byte, in order (spec/42_decode.md R132). -/
def State.emitBytes (s : State) (bs : List Byte) : State :=
  { s with tokens := s.tokens ++ bs.map fun b => ⟨.byte, b⟩ }

/-! ### Registers -/

/-- `ECARRY <- carry; ECNT <- n`. -/
def State.setCarry (s : State) (carry : Byte) (n : Nat) : State :=
  { s with ecarry := carry, ecnt := BitVec.ofNat 3 n }

/-- The encode unit's start-of-message state (spec/10_state.md R33; spec/41_encode.md R110). -/
def State.clearCarry (s : State) : State :=
  { s with ecarry := 0x00#8, ecnt := 0#3 }

/-- `DACC <- acc; DCNT <- n`. -/
def State.setBuffer (s : State) (acc : BitVec 7) (n : Nat) : State :=
  { s with dacc := acc, dcnt := BitVec.ofNat 3 n }

/-- `DACC <- 0x00; DCNT <- 0`, what an error-free `DEC.END` does (spec/42_decode.md R136). -/
def State.clearBuffer (s : State) : State :=
  { s with dacc := 0x00#7, dcnt := 0#3 }

/-- `DERR <- 0; DERRB <- 0x00` (R130). With `clearBuffer` it is the only way out of the error state besides reset
(spec/60_exceptions.md R186); there is no return from the error. -/
def State.clearError (s : State) : State :=
  { s with derr := false, derrb := 0x00#8 }

/-! ### The states an operation is specified on

spec/92_eei_decisions.md D16: "The operations are specified on reachable states only ...; a model may exclude the others by
type or must refuse them." The `START` operations read no register and set their unit "whatever it held" (D13), and the
lookups touch no register (R34), so these four are defined in every state (notes/assumptions/3.md). -/

/-- The pairs `ECARRY`, `ECNT` that D16 leaves in: `ECNT <= 4` (R24) and every bit of `ECARRY` below the valid ones is 0
(R21): shifting the `ECNT` valid bits out at the top leaves nothing. -/
abbrev State.EncodeOk (s : State) : Prop :=
  s.ecnt.toNat ≤ 4 ∧ s.ecarry <<< s.ecnt.toNat = 0x00#8

/-- The decode registers that D16 leaves in: every bit of `DACC` below the valid ones is 0 (R25), and `DERRB` is `0x00`
while `DERR` is 0 (R28). -/
abbrev State.DecodeOk (s : State) : Prop :=
  s.dacc <<< s.dcnt.toNat = 0x00#7 ∧ (s.derr = false → s.derrb = 0x00#8)

/-- The outcome of an operation that reads the encode registers. -/
def State.onEncodeOk (s : State) (t : State) : Host.Outcome State Fault Refusal :=
  if s.EncodeOk then .next t else .refused .unreachableEncodeState

/-- The outcome of an operation that reads the decode registers. -/
def State.onDecodeOk (s : State) (t : State) : Host.Outcome State Fault Refusal :=
  if s.DecodeOk then .next t else .refused .unreachableDecodeState

/-! ### The data paths -/

/-- What `ENC.BYTE b` makes of the carry (R112): the complete groups, the new `ECARRY` and the new count. -/
def packByte (carry : Byte) (c : Nat) (b : Byte) : List Symbol × Byte × Nat :=
  let w := encWindow carry c b
  let n := c + 8
  let w' := dropSymbol w
  if n - 5 ≥ 5 then
    ([topSymbol w, topSymbol w'], topByte (dropSymbol w'), n - 5 - 5)
  else
    ([topSymbol w], topByte w', n - 5)

/-- The final group of a message, if carry bits remain (R116). -/
def State.lastGroup (s : State) : List Symbol := if s.ecnt.toNat > 0 then [finalSymbol s.ecarry] else []

/-- What `DEC.CHAR` makes of the buffer and a symbol value (R132): the byte if one is complete, the new `DACC` and the new
count. -/
def unpackSymbol (acc : BitVec 7) (n : Nat) (v : Symbol) : List Byte × BitVec 7 × Nat :=
  let w := decWindow acc n v
  let m := n + 5
  if m ≥ 8 then
    ([topByte w], topBuffer (dropByte w), m - 8)
  else
    ([], topBuffer w, m)

/-! ### The error InvalidSymbol -/

/-- Error entry, `raise InvalidSymbol(c)` (spec/60_exceptions.md R182): `DERR <- 1; DERRB <- c; emit ERR(c)`. Nothing else
changes and control goes nowhere. -/
def State.raiseInvalidSymbol (s : State) (c : Byte) : State :=
  { s with derr := true, derrb := c }.emit .err c

/-- The valid-character part of `DEC.CHAR` (R132). -/
def State.acceptSymbol (s : State) (v : Symbol) : State :=
  let (bytes, acc, m) := unpackSymbol s.dacc s.dcnt.toNat v
  (s.setBuffer acc m).emitBytes bytes

/-! ### Reset -/

/-- The reset event (spec/70_reset_and_hazards.md R200, R201): all six registers zero. It returns no token, and the tokens
returned before it stand. -/
def State.resetRegisters (s : State) : State :=
  { s with ecarry := 0x00#8, ecnt := 0#3, dacc := 0x00#7, dcnt := 0#3, derr := false, derrb := 0x00#8 }

/-! ### The environment's end of the interface -/

/-- The environment issues events, to be taken after those already issued (spec/20_memory.md R60). -/
def State.issue (s : State) (es : List Event) : State :=
  { s with inputs := s.inputs ++ es }

/-- The environment issues a command word that is taken before anything else. -/
def State.issueFirst (s : State) (w : CommandWord) : State :=
  { s with inputs := .command w :: s.inputs }

/-- What a step finds to do, with the state in which the event has been taken. -/
inductive Fetched where
  /-- Nothing has been issued. -/
  | idle
  /-- A reset. -/
  | reset (s : State)
  /-- A command and the operation its word decodes to. -/
  | perform (i : Instr) (s : State)
  /-- A reserved command word. -/
  | reserved (w : CommandWord) (why : ReservedReason)
  deriving DecidableEq, Repr

/-- Takes the next event, in the order of issue (R60), and decodes it if it is a command (R72). -/
def fetch (s : State) : Fetched :=
  match s.inputs with
  | [] => .idle
  | .reset :: rest => .reset { s with inputs := rest }
  | .command w :: rest =>
    match decode w with
    | .legal i => .perform i { s with inputs := rest }
    | .reserved why => .reserved w why

end Sys2Proof.Machine
end

