-- ==== Sys2Proof/Machine/Dec.lean ====
section
/-! DEFINITION. The decode unit's operations (spec/42_decode.md). None touches the encode unit. -/

namespace Sys2Proof.Machine

/-- `DEC.START` (R130): begin a message with nothing buffered and no error recorded, whatever was held. -/
def execDecStart (s : State) : Host.Outcome State Fault Refusal :=
  .next s.clearBuffer.clearError

/-- `DEC.CHAR c`. The checks stand in the order of R135: with `DERR = 1` the command is ignored (R133); then an invalid
character raises InvalidSymbol (R132, spec/60_exceptions.md R182); then the symbol is shifted in (R132). -/
def execDecChar (c : Byte) (s : State) : Host.Outcome State Fault Refusal :=
  s.onDecodeOk
    (if s.derr then s
    else if invalidSymbol c then s.raiseInvalidSymbol c
    else s.acceptSymbol (entryValue (decTab c)))

/-- `DEC.END`: with `DERR = 1` ignored (R137); else the leftover bits are discarded whatever their value (R136). -/
def execDecEnd (s : State) : Host.Outcome State Fault Refusal :=
  s.onDecodeOk (if s.derr then s else s.clearBuffer)

end Sys2Proof.Machine
end

