-- ==== Sys2Proof/Machine/Enc.lean ====
section
/-! DEFINITION. The encode unit's operations (spec/41_encode.md). None can fail (R118), and none touches the decode unit. -/

namespace Sys2Proof.Machine

/-- `ENC.START` (R110): begin a message with nothing buffered, whatever was held. -/
def execEncStart (s : State) : Host.Outcome State Fault Refusal :=
  .next s.clearCarry

/-- `ENC.BYTE b` (R112): a `CHAR` token for every complete group, the rest kept as the new carry. -/
def execEncByte (b : Byte) (s : State) : Host.Outcome State Fault Refusal :=
  let (groups, carry, n) := packByte s.ecarry s.ecnt.toNat b
  s.onEncodeOk ((s.setCarry carry n).emitSymbols groups)

/-- `ENC.END` (R116): one last zero-padded symbol if carry bits remain, then the start-of-message state. -/
def execEncEnd (s : State) : Host.Outcome State Fault Refusal :=
  s.onEncodeOk (s.clearCarry.emitSymbols s.lastGroup)

end Sys2Proof.Machine
end

