-- ==== Sys2Proof/Machine/Lut.lean ====
section
/-! DEFINITION. The table lookups (spec/40_lut.md). They read one table entry, return it in one token and touch no register. -/

namespace Sys2Proof.Machine

/-- `LUT.S2C v` (R100): `emit LUT(ALPHA[v])`. -/
def execLutS2c (v : Symbol) (s : State) : Host.Outcome State Fault Refusal :=
  .next (s.emit .lut (alpha v))

/-- `LUT.C2S b` (R102): `emit LUT(zext_8(DECTAB[b]))`. An invalid `b` is a normal result. -/
def execLutC2s (b : Byte) (s : State) : Host.Outcome State Fault Refusal :=
  .next (s.emit .lut ((decTab b).setWidth 8))

end Sys2Proof.Machine
end

