-- ==== Sys2Proof/Machine/Dispatch.lean ====
section
/-! DEFINITION. What the block does for one command (spec/30_encoding.md R76): one arm per operation. -/

namespace Sys2Proof.Machine

def exec (i : Instr) (s : State) : Host.Outcome State Fault Refusal :=
  match i with
  | .encStart => Sys2Proof.Machine.execEncStart s
  | .encByte b => Sys2Proof.Machine.execEncByte b s
  | .encEnd => Sys2Proof.Machine.execEncEnd s
  | .lutS2c v => Sys2Proof.Machine.execLutS2c v s
  | .decStart => Sys2Proof.Machine.execDecStart s
  | .decChar c => Sys2Proof.Machine.execDecChar c s
  | .decEnd => Sys2Proof.Machine.execDecEnd s
  | .lutC2s b => Sys2Proof.Machine.execLutC2s b s

end Sys2Proof.Machine
end

