-- ==== Sys2Proof/Machine/Step.lean ====
section
/-! DEFINITION. One step of one instance. The block fetches no instructions (spec/10_state.md R30); it takes what its environment
has issued, one event at a time and each atomically (spec/20_memory.md R60). -/

namespace Sys2Proof.Machine

/-- One event: a command is performed (spec/30_encoding.md R70), a reset is taken (spec/70_reset_and_hazards.md R200), a
reserved word is refused (R82). With nothing issued the block "is idle and holds its registers"
(spec/60_exceptions.md R191; notes/assumptions/4.md). -/
def step (s : State) : Host.Outcome State Fault Refusal :=
  match fetch s with
  | .idle => .next s
  | .reset t => .next t.resetRegisters
  | .perform i t => exec i t
  | .reserved w why => .refused (.reservedWord w why)

/-- The state in which the environment has issued the command word made of the bits `w`, to be taken by the next step
(notes/assumptions/5.md). -/
def State.withFetchWord (s : State) (nbits w : Nat) : State := s.issueFirst (tableWord nbits w)

end Sys2Proof.Machine
end

