-- ==== Sys2Proof/Machine/Message.lean ====
section
/-! DEFINITION. Whole messages as compositions of the operations (spec/43_messages.md R150, R151, R153; the pseudo-commands of
spec/30_encoding.md R86). Nothing here adds behaviour. -/

namespace Sys2Proof.Machine

/-- The operations of a command sequence in order, each on the state the one before it left (spec/20_memory.md R60). -/
def perform : List Instr → State → Host.Outcome State Fault Refusal
  | [], s => .next s
  | i :: is, s =>
    match exec i s with
    | .next t => perform is t
    | .fault f => .fault f
    | .refused r => .refused r

/-- `ENCODE "bs"` (R86). -/
def encodeCommands (bs : List Byte) : List Instr :=
  .encStart :: (bs.map .encByte ++ [.encEnd])

/-- `DECODE "cs"` (R86). -/
def decodeCommands (cs : List Byte) : List Instr :=
  .decStart :: (cs.map .decChar ++ [.decEnd])

/-- The tokens that stand in `t` after those that stood in `s`. -/
def newTokens (s t : State) : List Token := t.tokens.drop s.tokens.length

/-- The data of the tokens of one kind, in order. -/
def dataOf (k : TokenKind) (ts : List Token) : List Byte :=
  (ts.filter fun t => t.kind == k).map Token.data

/-- `encode(bs)` (R150): the data of the `CHAR` tokens that `ENCODE` returns, the block being in state `s` before it; `none`
if the block gave the sequence no meaning. -/
def encodeFrom (s : State) (bs : List Byte) : Option (List Byte) :=
  match perform (encodeCommands bs) s with
  | .next t => some (dataOf .char (newTokens s t))
  | .fault _ => none
  | .refused _ => none

/-- The symbol values that an operation computes in a state, in order: `s0` and `s1` of `ENC.BYTE` (spec/41_encode.md R112)
and `s` of `ENC.END` (R116). -/
def symbolsMade (i : Instr) (s : State) : List Symbol :=
  match i with
  | .encStart => []
  | .encByte b => (packByte s.ecarry s.ecnt.toNat b).1
  | .encEnd => s.lastGroup
  | .lutS2c _ => []
  | .decStart => []
  | .decChar _ => []
  | .decEnd => []
  | .lutC2s _ => []

/-- The symbol values computed by a command sequence, in order; `none` if the block gave it no meaning. -/
def symbolsThrough : List Instr → State → Option (List Symbol)
  | [], _ => some []
  | i :: is, s =>
    match exec i s with
    | .next t => (symbolsThrough is t).map fun vs => symbolsMade i s ++ vs
    | .fault _ => none
    | .refused _ => none

/-- `enc_syms(bs)` (R151): the symbol values computed inside the operations of `ENCODE`, the block being in state `s` before
it. -/
def encSymsFrom (s : State) (bs : List Byte) : Option (List Symbol) := symbolsThrough (encodeCommands bs) s

/-- The two shapes of the result of `decode` (R153). -/
inductive DecodeResult where
  /-- `Ok(bytes)`: no `ERR` token was returned. -/
  | ok (bytes : List Byte)
  /-- `Err(prefix, c)`: an `ERR` token with data `c`, and the bytes returned before it. -/
  | err (bytes : List Byte) (c : Byte)
  deriving DecidableEq, Repr

/-- The shape that a message's tokens make (R153). -/
def decodeResult (ts : List Token) : DecodeResult :=
  match ts.find? fun t => t.kind == .err with
  | none => .ok (dataOf .byte ts)
  | some e => .err (dataOf .byte (ts.takeWhile fun t => t.kind != .err)) e.data

/-- `decode(cs)` (R153), the block being in state `s` before the message; `none` if the block gave the sequence no meaning. -/
def decodeFrom (s : State) (cs : List Byte) : Option DecodeResult :=
  match perform (decodeCommands cs) s with
  | .next t => some (decodeResult (newTokens s t))
  | .fault _ => none
  | .refused _ => none

end Sys2Proof.Machine
end

