-- ==== Sys2Proof/Machine/Text.lean ====
section
/-! DEFINITION. The textual form of commands and tokens (spec/30_encoding.md R85, R86). It is for the environment's use: no
operation reads it, and a line stands for the commands it names. What R85 leaves open is fixed in
notes/assumptions/8.md. -/

namespace Sys2Proof.Machine.Text

/-! ### Numbers and characters -/

/-- The value of a digit in a base, in either case. -/
def digitValue (base : Nat) (c : Char) : Option Nat :=
  let n := c.toNat
  let d :=
    if 48 ≤ n ∧ n ≤ 57 then n - 48
    else if 65 ≤ n ∧ n ≤ 70 then n - 55
    else if 97 ≤ n ∧ n ≤ 102 then n - 87
    else base
  if d < base then some d else none

/-- The number written by the given digits after `acc`. -/
def digits (base : Nat) : List Char → Nat → Option Nat
  | [], acc => some acc
  | c :: cs, acc =>
    match digitValue base c with
    | some d => digits base cs (base * acc + d)
    | none => none

/-- A number: `0x66`, `102` or `0b01100110` (R7, R85). -/
def number : List Char → Option Nat
  | '0' :: 'x' :: d :: ds => digits 16 (d :: ds) 0
  | '0' :: 'b' :: d :: ds => digits 2 (d :: ds) 0
  | d :: ds => digits 10 (d :: ds) 0
  | [] => none

/-- The code of a character in quotes: "meaning its ASCII code" (R85), so other characters stand for nothing. -/
def quotedCode (c : Char) : Option Byte := if c.toNat < 128 then some (Config.charCode c) else none

/-- The number as an 8-bit value. -/
def byteOf (n : Nat) : Option Byte := if n < 256 then some (BitVec.ofNat 8 n) else none

/-! ### The parts of a line -/

def isBlank (c : Char) : Bool := c == ' ' || c == '\t'

/-- A word of a line goes on while no blank, comment, comma or bracket comes. -/
def inWord (c : Char) : Bool := !(isBlank c || c == ';' || c == ',' || c == ']')

def skipBlanks (cs : List Char) : List Char := cs.dropWhile isBlank

/-- Nothing but blanks and a comment: "A comment runs from `;` to the end of the line" (R85). -/
def atEnd (cs : List Char) : Bool :=
  match skipBlanks cs with
  | [] => true
  | c :: _ => c == ';'

/-- An operand and what follows it: "a number ... or a character in single quotes" (R85). -/
def operand : List Char → Option (Byte × List Char)
  | '\'' :: c :: '\'' :: rest => (quotedCode c).map fun b => (b, rest)
  | cs => ((number (cs.takeWhile inWord)).bind byteOf).map fun b => (b, cs.dropWhile inWord)

/-- The operand of a line, with nothing after it. -/
def lastOperand (cs : List Char) : Option Byte :=
  match operand (skipBlanks cs) with
  | some (b, rest) => if atEnd rest then some b else none
  | none => none

/-- The double quote that stands around the operand of a pseudo-command. -/
def doubleQuote : Char := Char.ofNat 34

/-- The codes of the characters before the closing quote, with nothing after it. -/
def stringBody : List Char → Option (List Byte)
  | [] => none
  | c :: cs =>
    if c = doubleQuote then (if atEnd cs then some [] else none)
    else
      match quotedCode c, stringBody cs with
      | some b, some bs => some (b :: bs)
      | _, _ => none

/-- The operand of a pseudo-command (R86), a string in double quotes. DESIGN CHOICE: R86 lets the operand be "a string or byte
list" and gives a byte list no text, so one that is no such string is written by no line and is given to
`encodeCommands` or `decodeCommands` itself (notes/assumptions/8.md). -/
def lastString (cs : List Char) : Option (List Byte) :=
  match skipBlanks cs with
  | c :: rest => if c = doubleQuote then stringBody rest else none
  | [] => none

/-! ### Lines -/

/-- The commands that a mnemonic with the rest of its line stands for: one command for a mnemonic of R76, the sequence of R86
for a pseudo-command. -/
def commandNamed (name : List Char) (rest : List Char) : Option (List Instr) :=
  let plain (i : Instr) : Option (List Instr) := if atEnd rest then some [i] else none
  if name = "ENC.START".toList then plain .encStart
  else if name = "ENC.BYTE".toList then (lastOperand rest).map fun b => [.encByte b]
  else if name = "ENC.END".toList then plain .encEnd
  else if name = "LUT.S2C".toList then
    (lastOperand rest).bind fun v => if v.toNat < 32 then some [.lutS2c (v.setWidth 5)] else none
  else if name = "DEC.START".toList then plain .decStart
  else if name = "DEC.CHAR".toList then (lastOperand rest).map fun c => [.decChar c]
  else if name = "DEC.END".toList then plain .decEnd
  else if name = "LUT.C2S".toList then (lastOperand rest).map fun b => [.lutC2s b]
  else if name = "ENCODE".toList then (lastString rest).map encodeCommands
  else if name = "DECODE".toList then (lastString rest).map decodeCommands
  else none

/-- The commands of one line; a line with at most a comment stands for none. -/
def line (cs : List Char) : Option (List Instr) :=
  if atEnd cs then some []
  else commandNamed ((skipBlanks cs).takeWhile inWord) ((skipBlanks cs).dropWhile inWord)

/-- The commands of a sequence of lines, in order; `none` if some line is no command. -/
def lines : List String → Option (List Instr)
  | [] => some []
  | l :: ls =>
    match line l.toList, lines ls with
    | some is, some js => some (is ++ js)
    | _, _ => none

/-! ### Writing a command -/

/-- A hexadecimal digit. -/
def hexDigit (x : BitVec 4) : Char :=
  if x.toNat < 10 then Char.ofNat (48 + x.toNat) else Char.ofNat (55 + x.toNat)

/-- A byte as a number of R85. -/
def hexByte (b : Byte) : List Char :=
  ['0', 'x', hexDigit (b.extractLsb 7 4), hexDigit (b.extractLsb 3 0)]

/-- A command written with the mnemonic of its row (R76) and its operand as a number. -/
def write (i : Instr) : List Char :=
  match i with
  | .encStart => "ENC.START".toList
  | .encByte b => "ENC.BYTE ".toList ++ hexByte b
  | .encEnd => "ENC.END".toList
  | .lutS2c v => "LUT.S2C ".toList ++ hexByte (v.setWidth 8)
  | .decStart => "DEC.START".toList
  | .decChar c => "DEC.CHAR ".toList ++ hexByte c
  | .decEnd => "DEC.END".toList
  | .lutC2s b => "LUT.C2S ".toList ++ hexByte b

/-! ### Token lists -/

/-- The kind of a name of R74. -/
def kindNamed (name : List Char) : Option TokenKind :=
  if name = "CHAR".toList then some .char
  else if name = "BYTE".toList then some .byte
  else if name = "ERR".toList then some .err
  else if name = "LUT".toList then some .lut
  else none

/-- One token, "the kind and the data", and what follows it. -/
def token (cs : List Char) : Option (Token × List Char) :=
  match kindNamed ((skipBlanks cs).takeWhile inWord), operand (skipBlanks ((skipBlanks cs).dropWhile inWord)) with
  | some k, some (d, rest) => some (⟨k, d⟩, skipBlanks rest)
  | _, _ => none

/-- The tokens up to the closing bracket, one after each of at most `n` commas. -/
def tokensUpTo : Nat → List Char → Option (List Token)
  | 0, _ => none
  | n + 1, cs =>
    match token cs with
    | some (t, [']']) => some [t]
    | some (t, ',' :: rest) => (tokensUpTo n rest).map fun ts => t :: ts
    | _ => none

/-- A token list "in square brackets", as in `[CHAR 'C', CHAR 'R']` and `[]` (R85). -/
def tokens (cs : List Char) : Option (List Token) :=
  match cs with
  | ['[', ']'] => some []
  | '[' :: rest => tokensUpTo rest.length rest
  | _ => none

end Sys2Proof.Machine.Text
end

