-- ==== Sys2Proof/Machine/BitString.lean ====
section
/-! DEFINITION. Bit strings, the abstract view of the data path that the spec's closed forms are written in: a string is a list
of bits, oldest first, and a value is read with its first bit most significant (spec/20_memory.md R50; spec/10_state.md R23,
R26). -/

namespace Sys2Proof.Machine

/-- The bits of a value, most significant first. -/
def bitsOf {n : Nat} (v : BitVec n) : List Bool := List.ofFn fun i : Fin n => v.getMsbD i

/-- A bit string read as a number, its first bit most significant. -/
def numberOf (l : List Bool) : Nat := l.foldl (fun (a : Nat) (x : Bool) => 2 * a + x.toNat) 0

/-- The `n`-bit value of a bit string. -/
def valueOf (n : Nat) (l : List Bool) : BitVec n := BitVec.ofNat n (numberOf l)

/-- The bits of a sequence of values, in order. -/
def streamOf {n : Nat} (vs : List (BitVec n)) : List Bool := vs.flatMap fun v => bitsOf v

/-- `n`-bit values cut from the front of a bit string while `n` bits remain: the `j`-th is made of the bits
`n * j .. n * j + n - 1`. -/
def cut (n : Nat) (l : List Bool) : List (BitVec n) :=
  (List.range (l.length / n)).map fun j => valueOf n ((l.drop (n * j)).take n)

/-- The abstract carry: the `ECNT` valid bits of `ECARRY`, oldest first (R23). -/
def State.carryBits (s : State) : List Bool := (bitsOf s.ecarry).take s.ecnt.toNat

/-- The abstract accumulator: the `DCNT` valid bits of `DACC`, oldest first (R26). -/
def State.bufferBits (s : State) : List Bool := (bitsOf s.dacc).take s.dcnt.toNat

end Sys2Proof.Machine
end

