-- ==== Sys2Proof/Machine/Ghost.lean ====
section
/-! DEFINITION. The ghost counters of spec/10_state.md R31, carried beside the state: they are not hardware state and no
operation reads them. -/

namespace Sys2Proof.Machine

/-- The four ghost counters (R31), unbounded natural numbers. -/
structure Counters where
  /-- `ENC.BYTE` commands since the last reset, `ENC.START` or `ENC.END`. -/
  ein : Nat
  /-- `CHAR` tokens those commands returned. -/
  eout : Nat
  /-- `DEC.CHAR` commands with a valid character and `DERR = 0`, since the last reset, `DEC.START` or error-free
  `DEC.END`. -/
  din : Nat
  /-- `BYTE` tokens those commands returned. -/
  dout : Nat
  deriving DecidableEq, Repr

/-- The counters after a reset. -/
def Counters.zero : Counters := ⟨0, 0, 0, 0⟩

/-- The counters after an operation that led from `s` to `t`. -/
def Counters.after (g : Counters) (i : Instr) (s t : State) : Counters :=
  match i with
  | .encStart => { g with ein := 0, eout := 0 }
  | .encByte _ =>
    { g with ein := g.ein + 1, eout := g.eout + (dataOf .char (newTokens s t)).length }
  | .encEnd => { g with ein := 0, eout := 0 }
  | .lutS2c _ => g
  | .decStart => { g with din := 0, dout := 0 }
  | .decChar c =>
    if s.derr = false ∧ invalidSymbol c = false then
      { g with din := g.din + 1, dout := g.dout + (dataOf .byte (newTokens s t)).length }
    else g
  | .decEnd => if s.derr then g else { g with din := 0, dout := 0 }
  | .lutC2s _ => g

/-- The counters after a step that led from `s` to `t`. -/
def Counters.afterStep (g : Counters) (s t : State) : Counters :=
  match fetch s with
  | .idle => g
  | .reset _ => Counters.zero
  | .perform i u => g.after i u t
  | .reserved _ _ => g

end Sys2Proof.Machine
end

