-- ==== Sys2Proof/Machine/Instances.lean ====
section
/-! DEFINITION. Several instances of the block side by side (spec/20_memory.md R62; spec/60_exceptions.md R191). The open
parameter `N_INST` of spec/92_eei_decisions.md D15 is the length of the list. They share only the constant tables. -/

namespace Sys2Proof.Machine

/-- The instances, each a block of its own. -/
abbrev Instances := List State

/-- A step of instance `k`. -/
def stepInstance (all : Instances) (k : Fin all.length) : Host.Outcome Instances Fault Refusal :=
  match step all[k] with
  | .next t => .next (all.set k t)
  | .fault f => .fault f
  | .refused r => .refused r

end Sys2Proof.Machine
end

