-- ==== Sys2Proof/Safety.lean ====
section
/-! DEFINITION. The terms that claims about the block are stated in: its invariant, what an operation may leave alone, the
ghost invariants, and the closed forms of whole messages. -/

namespace Sys2Proof.Machine

/-! ### The invariant -/

/-- While `DERR` is 1, `DERRB` is "the byte that caused the error" (spec/10_state.md R28), so it is an invalid character. -/
abbrev State.ErrorRecordOk (s : State) : Prop := s.derr = true → invalidSymbol s.derrb = true

/-- What the spec says of every reachable state, on the registers alone: R21, R24, R25, R28 of spec/10_state.md. -/
abbrev State.Inv (s : State) : Prop := s.EncodeOk ∧ s.DecodeOk ∧ s.ErrorRecordOk

/-! ### Frames -/

/-- Both encode registers agree. -/
abbrev SameEncode (s t : State) : Prop := t.ecarry = s.ecarry ∧ t.ecnt = s.ecnt

/-- All four decode registers agree. -/
abbrev SameDecode (s t : State) : Prop :=
  t.dacc = s.dacc ∧ t.dcnt = s.dcnt ∧ t.derr = s.derr ∧ t.derrb = s.derrb

/-- What one operation may return, by its kind (the table of spec/30_encoding.md R74). -/
def TokenAllowed (i : Instr) (tok : Token) : Prop :=
  match i with
  | .encStart => False
  | .encByte _ => tok.kind = .char ∧ ∃ v, tok.data = alpha v
  | .encEnd => tok.kind = .char ∧ ∃ v, tok.data = alpha v
  | .lutS2c v => tok = ⟨.lut, alpha v⟩
  | .decStart => False
  | .decChar c => tok.kind = .byte ∨ tok = ⟨.err, c⟩
  | .decEnd => False
  | .lutC2s b => tok = ⟨.lut, (decTab b).setWidth 8⟩

/-! ### Ghost invariants -/

/-- Bit conservation (R32). -/
abbrev Conserved (s : State) (g : Counters) : Prop :=
  8 * g.ein = 5 * g.eout + s.ecnt.toNat ∧ (s.derr = false → 5 * g.din = 8 * g.dout + s.dcnt.toNat)

/-- The counts as functions of the number of bytes and of valid characters consumed, the second also in the error state, where
neither the count nor the counter moves (R24, R26). -/
abbrev CountsTracked (s : State) (g : Counters) : Prop :=
  s.ecnt.toNat = (8 * g.ein) % 5 ∧ s.dcnt.toNat = (5 * g.din) % 8

/-! ### Closed forms of whole messages -/

/-- The number `p` of pad bits of a bit string of length `n` (spec/43_messages.md R152). -/
def padBits (n : Nat) : Nat := (5 - n % 5) % 5

/-- `enc_syms(bs)` in closed form (R152): the message's bits, zero-padded to whole groups, cut into groups of 5. -/
def closedEncode (bs : List Byte) : List Symbol :=
  cut 5 (streamOf bs ++ List.replicate (padBits (streamOf bs).length) false)

/-- Every character is valid (R154). -/
abbrev AllValid (cs : List Byte) : Prop := ∀ c ∈ cs, invalidSymbol c = false

/-- The symbol values of valid characters, `DECTAB[c][4:0]` of each (R154; spec/30_encoding.md R75). -/
def symbolsOf (cs : List Byte) : List Symbol := cs.map fun c => entryValue (decTab c)

/-- The bytes of a valid message in closed form (R154): the symbols' bits cut into bytes, the last few left out. -/
def closedDecode (cs : List Byte) : List Byte := cut 8 (streamOf (symbolsOf cs))

/-- A letter of either case (R162). -/
def isLetter (c : Byte) : Bool :=
  (0x41#8 ≤ c && c ≤ 0x5A#8) || (0x61#8 ≤ c && c ≤ 0x7A#8)

/-- The same character, or the same letter in the other case: bit 5 of its code flipped (R41, R162). -/
abbrev CaseVariant (c d : Byte) : Prop := d = c ∨ (isLetter c = true ∧ d = c ^^^ 0x20#8)

/-- The same character, or a look-alike in place of the canonical digit (R163). -/
abbrev LookAlike (c d : Byte) : Prop :=
  d = c ∨ (c = 0x30#8 ∧ (d = 0x4F#8 ∨ d = 0x6F#8)) ∨
    (c = 0x31#8 ∧ (d = 0x49#8 ∨ d = 0x69#8 ∨ d = 0x4C#8 ∨ d = 0x6C#8))

end Sys2Proof.Machine
end

