-- ==== Sys2Proof/Certificates/Slice0/Obligations.lean ====
section
/-! DEFINITION. The statements about the block, in the order of the spec's files: the interface, the tables, the lookups, the
encode unit, the decode unit, the whole machine, whole messages. Each docstring names the rules it formalises. -/

open Sys2Proof Sys2Proof.Machine

/-! ### The interface (spec/30_encoding.md, spec/70_reset_and_hazards.md, spec/20_memory.md section 5) -/

/-- Decoding and encoding agree in both directions, for every operation with every operand and for every word (R71, R72,
R73, R76). -/
def Obligations.DecodeEncodeAgree : Prop :=
  ∀ (w : CommandWord) (i : Instr), decode w = .legal i ↔ encode i = w

/-- R76: the rows of the opcode map are disjoint, a word that selects a row decodes to that row's operation, and a word that
selects none is reserved. -/
def Obligations.OpcodeRowsAreDisjoint : Prop :=
  ∀ w : CommandWord,
    match decode w with
    | .legal i => opcodeTable.filter (fun r => r.selects w) = [i.row]
    | .reserved _ => opcodeTable.filter (fun r => r.selects w) = []

/-- R77: 804 legal words, by opcode; 3292 reserved ones, 2048 by `rsv` and 1244 by a must-be-zero field, of these 255 for each of the
four operand-less operations and 224 for `LUT.S2C`. -/
def Obligations.LegalAndReservedWordCounts : Prop :=
  let words := (List.range 4096).map (BitVec.ofNat 12)
  let reservedAs (why : ReservedReason) (w : CommandWord) : Bool := decode w == .reserved why
  let reservedAt (op : BitVec 4) (w : CommandWord) : Bool :=
    w.extractLsb 11 8 == op && (reservedAs .dataNotZero w || reservedAs .symbolOutOfRange w)
  let legal (w : CommandWord) : Bool :=
    !(reservedAs .rsvSet w || reservedAs .dataNotZero w || reservedAs .symbolOutOfRange w)
  let legalAt (op : BitVec 4) (w : CommandWord) : Bool := w.extractLsb 11 8 == op && legal w
  words.countP legal = 804 ∧ words.countP (fun w => !legal w) = 3292 ∧
    words.countP (legalAt 0x0) = 1 ∧ words.countP (legalAt 0x1) = 256 ∧ words.countP (legalAt 0x2) = 1 ∧
    words.countP (legalAt 0x3) = 32 ∧ words.countP (legalAt 0x4) = 1 ∧ words.countP (legalAt 0x5) = 256 ∧
    words.countP (legalAt 0x6) = 1 ∧ words.countP (legalAt 0x7) = 256 ∧
    words.countP (reservedAs .rsvSet) = 2048 ∧
    words.countP (fun w => reservedAs .dataNotZero w || reservedAs .symbolOutOfRange w) = 1244 ∧
    words.countP (reservedAt 0x0) = 255 ∧ words.countP (reservedAt 0x2) = 255 ∧
    words.countP (reservedAt 0x4) = 255 ∧ words.countP (reservedAt 0x6) = 255 ∧
    words.countP (reservedAt 0x3) = 224

/-- R80, R81, R82: exactly the words with `cmd[11] = 1`, with opcode `0x0`, `0x2`, `0x4` or `0x6` and `data != 0x00`, or with
opcode `0x3` and `data[7:5] != 0b000` are reserved, and a step that meets one gives no next state. -/
def Obligations.ReservedWordsAreRefused : Prop :=
  ∀ (s : State) (w : CommandWord) (rest : List Event), s.inputs = .command w :: rest →
    ((w.getLsbD 11 = true ∨
        ((w.extractLsb 11 8 = 0x0#4 ∨ w.extractLsb 11 8 = 0x2#4 ∨ w.extractLsb 11 8 = 0x4#4 ∨
          w.extractLsb 11 8 = 0x6#4) ∧ w.extractLsb 7 0 ≠ 0x00#8) ∨
        (w.extractLsb 11 8 = 0x3#4 ∧ w.extractLsb 7 5 ≠ 0b000#3)) ↔
      ∃ why, step s = .refused (.reservedWord w why))

/-- Nine chosen command words, one or two of each operation, that R85 and the tables of spec/95_test_vectors.md write out,
decode to the commands they stand for. -/
def Obligations.SpecCommandWordsDecode : Prop :=
  decode 0x000#12 = .legal .encStart ∧ decode 0x166#12 = .legal (.encByte 0x66#8) ∧
    decode 0x200#12 = .legal .encEnd ∧ decode 0x30C#12 = .legal (.lutS2c 12#5) ∧
    decode 0x31F#12 = .legal (.lutS2c 31#5) ∧ decode 0x400#12 = .legal .decStart ∧
    decode 0x543#12 = .legal (.decChar 0x43#8) ∧ decode 0x600#12 = .legal .decEnd ∧
    decode 0x775#12 = .legal (.lutC2s 0x75#8)

/-- R60, R70, R72: a step takes the next command that was issued and performs the operation its word decodes to, on the
state the operation before it left. The queue of what was issued is the model's own (notes/assumptions/1.md). -/
def Obligations.StepPerformsTheDecodedCommand : Prop :=
  ∀ (s : State) (w : CommandWord) (rest : List Event) (i : Instr),
    s.inputs = .command w :: rest → decode w = .legal i → step s = exec i { s with inputs := rest }

/-- R70, R191: with nothing issued the block holds its registers and returns no token. The idle step itself is the model's
choice (notes/assumptions/4.md). -/
def Obligations.BlockIsIdleBetweenCommands : Prop :=
  ∀ s : State, s.inputs = [] → step s = .next s

/-- R200: the reset event puts all six registers to zero and returns no token, and after reset they are zero. That the event
stands in the queue of what was issued is the model's choice (notes/assumptions/1.md). -/
def Obligations.ResetZeroesTheRegisters : Prop :=
  (∀ (s : State) (rest : List Event), s.inputs = .reset :: rest →
    step s = .next ⟨0x00#8, 0#3, 0x00#7, 0#3, false, 0x00#8, rest, s.tokens⟩) ∧
  State.reset.ecarry = 0x00#8 ∧ State.reset.ecnt = 0#3 ∧ State.reset.dacc = 0x00#7 ∧ State.reset.dcnt = 0#3 ∧
    State.reset.derr = false ∧ State.reset.derrb = 0x00#8

/-- R201: the effect of reset is exactly that of `ENC.START` followed by `DEC.START`; the tokens returned before it stand. The queue is the model's own (notes/assumptions/1.md). -/
def Obligations.ResetIsBothStarts : Prop :=
  ∀ (s : State) (rest : List Event), s.inputs = .reset :: rest →
    ∃ t, step s = .next t ∧ perform [.encStart, .decStart] { s with inputs := rest } = .next t ∧ t.tokens = s.tokens

/-- R33: `ENC.START` and `ENC.END` put the encode unit in its start-of-message state, `DEC.START` the decode unit, and
`DEC.END` puts `DACC` and `DCNT` in it when `DERR` is 0; it is the state after reset. -/
def Obligations.StartOfMessageState : Prop :=
  (State.reset.ecarry = 0x00#8 ∧ State.reset.ecnt = 0#3 ∧ State.reset.dacc = 0x00#7 ∧ State.reset.dcnt = 0#3 ∧
    State.reset.derr = false ∧ State.reset.derrb = 0x00#8) ∧
  ∀ s t : State,
    (exec .encStart s = .next t → SameEncode State.reset t) ∧
    (exec .encEnd s = .next t → SameEncode State.reset t) ∧
    (exec .decStart s = .next t → SameDecode State.reset t) ∧
    (s.derr = false → exec .decEnd s = .next t → t.dacc = State.reset.dacc ∧ t.dcnt = State.reset.dcnt)

/-- What `withFetchWord` is for: the next step performs exactly the operation of the word (a convention of the model,
notes/assumptions/5.md). -/
def Obligations.PlacedWordIsPerformedNext : Prop :=
  ∀ (i : Instr) (s : State),
    decodeTableWord 12 (encode i).toNat = some i ∧ decodeTableWord 16 (encode i).toNat = some i ∧
      step (s.withFetchWord 12 (encode i).toNat) = exec i s ∧ step (s.withFetchWord 16 (encode i).toNat) = exec i s

/-- R60, R61: running the machine on the words of a command sequence is performing its operations in the order of issue. The
queue is the model's own (notes/assumptions/1.md). -/
def Obligations.RunPerformsCommandsInOrder : Prop :=
  ∀ (is : List Instr) (rest : List Event) (s : State),
    s.inputs = is.map (fun i => .command (encode i)) ++ rest →
      Sys2Proof.core.run is.length s = perform is { s with inputs := rest }

/-- R74: the word of a token, and which tokens each command may return: at most two, two only from `ENC.BYTE`, each of the
kind and with the data of the table of R74. -/
def Obligations.TokensReturnedByEachCommand : Prop :=
  (∀ t : Token, t.word.extractLsb 9 8 = t.kind.bits ∧ t.word.extractLsb 7 0 = t.data) ∧
  (TokenKind.char.bits = 0b00#2 ∧ TokenKind.byte.bits = 0b01#2 ∧ TokenKind.err.bits = 0b10#2 ∧
    TokenKind.lut.bits = 0b11#2) ∧
  ∀ (i : Instr) (s t : State), exec i s = .next t →
    ∃ l, t.tokens = s.tokens ++ l ∧ l.length ≤ 2 ∧ (l.length = 2 → ∃ b, i = .encByte b) ∧
      ∀ tok ∈ l, TokenAllowed i tok

/-- R61, R211: no step drops or reorders a token that was returned, and only a command returns one. -/
def Obligations.TokensAreOnlyAppended : Prop :=
  ∀ s t : State, step s = .next t →
    s.tokens <+: t.tokens ∧ (t.tokens ≠ s.tokens → ∃ w rest, s.inputs = .command w :: rest ∧ t.inputs = rest)

/-- R85, R86: every command, written with its mnemonic and its operand, is read back as that command, and the lines and tokens
that R85 gives as examples stand for the words it gives. What the notation leaves open is the model's choice
(notes/assumptions/8.md). -/
def Obligations.TextStandsForCommands : Prop :=
  (∀ i : Instr, (Text.write i).takeWhile Text.inWord = i.row.mnemonic.toList ∧ Text.line (Text.write i) = some [i]) ∧
  (Text.lines ["ENC.BYTE 'f'", "ENC.END", "DEC.CHAR 'C'", "LUT.S2C 12", "LUT.C2S 'u'"]).map (fun is => is.map encode) =
    some [0x166#12, 0x200#12, 0x543#12, 0x30C#12, 0x775#12] ∧
  (Text.tokens "[CHAR 'C', BYTE 0x66, ERR 'u', LUT 0x2C]".toList).map (fun ts => ts.map Token.word) =
    some [0x043#10, 0x166#10, 0x275#10, 0x32C#10] ∧
  Text.line "ENCODE \"fo\"".toList = some (encodeCommands [0x66#8, 0x6F#8]) ∧
  Text.line "DECODE \"CR\"".toList = some (decodeCommands [0x43#8, 0x52#8])

/-! ### The tables (spec/20_memory.md) -/

/-- R42: `ALPHA[v]` is the code of the character at position `v` of the canonical alphabet; the 32 entries differ, 10 are digits
and 22 upper-case letters other than `I`, `L`, `O`, `U`; and the encode unit returns no other character. -/
def Obligations.AlphaIsTheCanonicalAlphabet : Prop :=
  (∀ v : Symbol, Config.canonicalAlphabet[v.toNat]?.map Config.charCode = some (alpha v)) ∧
    Config.canonicalAlphabet.length = 32 ∧ (∀ v w : Symbol, alpha v = alpha w → v = w) ∧
    (∀ v : Symbol, v.toNat < 10 → 0x30 ≤ (alpha v).toNat ∧ (alpha v).toNat ≤ 0x39) ∧
    (∀ v : Symbol, 10 ≤ v.toNat → 0x41 ≤ (alpha v).toNat ∧ (alpha v).toNat ≤ 0x5A) ∧
    (∀ v : Symbol, alpha v ≠ 0x49#8 ∧ alpha v ≠ 0x4C#8 ∧ alpha v ≠ 0x4F#8 ∧ alpha v ≠ 0x55#8) ∧
    ∀ (i : Instr) (s t : State), i.isEnc = true → exec i s = .next t →
      ∀ c ∈ dataOf .char (newTokens s t), ∃ v, c = alpha v

/-- R45: the clauses that define `DECTAB`, and the count of its valid entries. -/
def Obligations.DecodeTableClauses : Prop :=
  (∀ d : BitVec 4, d.toNat ≤ 9 → decTab (0x30#8 + d.setWidth 8) = 0x20#6 + d.setWidth 6) ∧
  (∀ v : Symbol, 10 ≤ v.toNat →
    decTab (alpha v) = 0x20#6 + v.setWidth 6 ∧ decTab (alpha v + 0x20#8) = 0x20#6 + v.setWidth 6) ∧
  (decTab 0x4F#8 = 0x20#6 ∧ decTab 0x6F#8 = 0x20#6) ∧
  (decTab 0x49#8 = 0x21#6 ∧ decTab 0x69#8 = 0x21#6 ∧ decTab 0x4C#8 = 0x21#6 ∧ decTab 0x6C#8 = 0x21#6) ∧
  (decTab 0x55#8 = 0x00#6 ∧ decTab 0x75#8 = 0x00#6) ∧
  (∀ b : Byte, b.toNat < 0x30 ∨ (0x3A ≤ b.toNat ∧ b.toNat ≤ 0x40) ∨ (0x5B ≤ b.toNat ∧ b.toNat ≤ 0x60) ∨
    0x7B ≤ b.toNat → decTab b = 0x00#6) ∧
  ((List.range 256).countP fun n => entryValid (decTab (BitVec.ofNat 8 n))) = 60 ∧
  ((List.range 256).countP fun n => decTab (BitVec.ofNat 8 n) == 0x00#6) = 196

/-- R47: every canonical character decodes to its own value; how many bytes stand for each value, and which (the inverse
table); case insensitivity of every letter. -/
def Obligations.TablesAgree : Prop :=
  (∀ v : Symbol, decTab (alpha v) = 0x20#6 + v.setWidth 6) ∧
  (∀ v : Symbol, ((List.range 256).countP fun n => decTab (BitVec.ofNat 8 n) == 0x20#6 + v.setWidth 6) =
    if v.toNat = 0 then 3 else if v.toNat = 1 then 5 else if v.toNat ≤ 9 then 1 else 2) ∧
  (∀ (v : Symbol) (b : Byte), decTab b = 0x20#6 + v.setWidth 6 ↔
    b = alpha v ∨ (10 ≤ v.toNat ∧ b = alpha v + 0x20#8) ∨ (v = 0#5 ∧ (b = 0x4F#8 ∨ b = 0x6F#8)) ∨
      (v = 1#5 ∧ (b = 0x49#8 ∨ b = 0x4C#8 ∨ b = 0x69#8 ∨ b = 0x6C#8))) ∧
  (∀ b : Byte, 0x41 ≤ b.toNat → b.toNat ≤ 0x5A → decTab (b + 0x20#8) = decTab b)

/-! ### The lookups (spec/40_lut.md) -/

/-- R100: the word of `LUT.S2C v`, and its one token, from every state and with nothing else changed. -/
def Obligations.LutS2cReturnsTheCharacter : Prop :=
  ∀ (v : Symbol) (s : State), decode (0x300#12 + v.setWidth 12) = .legal (.lutS2c v) ∧
    exec (.lutS2c v) s = .next { s with tokens := s.tokens ++ [⟨.lut, alpha v⟩] }

/-- R102: the word of `LUT.C2S b`, and its one token: `0x20 + v` for a character of value `v`, `0x00` for an invalid byte,
from every state and with nothing else changed, `DERR` and `DERRB` among it. -/
def Obligations.LutC2sReturnsTheEntry : Prop :=
  ∀ (b : Byte) (s : State), decode (0x700#12 + b.setWidth 12) = .legal (.lutC2s b) ∧
    exec (.lutC2s b) s = .next { s with tokens := s.tokens ++ [⟨.lut, (decTab b).setWidth 8⟩] } ∧
    (entryValid (decTab b) = true → (decTab b).setWidth 8 = 0x20#8 + (entryValue (decTab b)).setWidth 8) ∧
    (entryValid (decTab b) = false → (decTab b).setWidth 8 = 0x00#8)

/-- R104: the laws of the two lookups, on what the operations return. -/
def Obligations.LookupLaws : Prop :=
  let returned (i : Instr) (s : State) (d : Byte) : Prop :=
    exec i s = .next { s with tokens := s.tokens ++ [⟨.lut, d⟩] }
  (∀ (v : Symbol) (s t : State) (d : Byte),
    returned (.lutS2c v) s d → returned (.lutC2s d) t (0x20#8 + v.setWidth 8)) ∧
  (∀ (b d : Byte) (s : State), 0x41 ≤ b.toNat → b.toNat ≤ 0x5A →
    (returned (.lutC2s (b + 0x20#8)) s d ↔ returned (.lutC2s b) s d)) ∧
  (∀ (s : State) (d : Byte), returned (.lutC2s 0x4F#8) s d ↔ returned (.lutC2s 0x30#8) s d) ∧
  (∀ (s : State) (d : Byte), (returned (.lutC2s 0x49#8) s d ↔ returned (.lutC2s 0x31#8) s d) ∧
    (returned (.lutC2s 0x4C#8) s d ↔ returned (.lutC2s 0x31#8) s d)) ∧
  (∀ (v : Symbol) (s : State) (d : Byte), returned (.lutS2c v) s d →
    d ≠ 0x49#8 ∧ d ≠ 0x4C#8 ∧ d ≠ 0x4F#8 ∧ d ≠ 0x55#8 ∧ ¬(0x61 ≤ d.toNat ∧ d.toNat ≤ 0x7A)) ∧
  (∀ (v w : Symbol) (s t : State) (d : Byte), returned (.lutS2c v) s d → returned (.lutS2c w) t d → v = w)

/-- R103: `LUT.C2S c` may be issued in every state and changes no register, and `DEC.CHAR c` raises InvalidSymbol exactly when `LUT.C2S c` would return `0x00`, and otherwise shifts in the value
`v` for which `LUT.C2S c` returns `0x20 + v`: the held bits, then `v`'s, are the emitted byte's, then the held ones. -/
def Obligations.DecCharUsesTheLookup : Prop :=
  (∀ (c : Byte) (s : State), ∃ d, exec (.lutC2s c) s = .next { s with tokens := s.tokens ++ [⟨.lut, d⟩] }) ∧
  ∀ (c : Byte) (s : State), s.DecodeOk → s.derr = false →
    ∃ t, exec (.decChar c) s = .next t ∧
      (t.derr = true ↔ exec (.lutC2s c) s = .next { s with tokens := s.tokens ++ [⟨.lut, 0x00#8⟩] }) ∧
      (t.derr = false → ∃ (v : Symbol) (bytes : List Byte),
        exec (.lutC2s c) s = .next { s with tokens := s.tokens ++ [⟨.lut, 0x20#8 + v.setWidth 8⟩] } ∧
        t.tokens = s.tokens ++ bytes.map (fun b => ⟨.byte, b⟩) ∧
        s.bufferBits ++ bitsOf v = streamOf bytes ++ t.bufferBits)

/-! ### The encode unit (spec/41_encode.md) -/

/-- R110: `ENC.START`, from every state. -/
def Obligations.EncStartClearsTheCarry : Prop :=
  decode 0x000#12 = .legal .encStart ∧
    ∀ s : State, exec .encStart s = .next { s with ecarry := 0x00#8, ecnt := 0#3 }

/-- R112: `ENC.BYTE b`, the pseudocode in unbounded natural numbers (R8), from every state that meets its precondition and
the zero fill of R21. -/
def Obligations.EncByteFollowsItsPseudocode : Prop :=
  (∀ b : Byte, decode (0x100#12 + b.setWidth 12) = .legal (.encByte b)) ∧
  ∀ (b : Byte) (s : State), s.ecnt.toNat ≤ 4 → s.ecarry.toNat % 2 ^ (8 - s.ecnt.toNat) = 0 →
    let c := s.ecnt.toNat
    let w := (s.ecarry.toNat <<< 4) ||| (b.toNat <<< (4 - c))
    let w₁ := (w <<< 5) % 4096
    let w₂ := (w₁ <<< 5) % 4096
    exec (.encByte b) s = .next
      (if c + 8 - 5 < 5 then
        { s with
          ecarry := BitVec.ofNat 8 (w₁ / 16), ecnt := BitVec.ofNat 3 (c + 8 - 5)
          tokens := s.tokens ++ [⟨.char, alpha (BitVec.ofNat 5 (w / 128))⟩] }
      else
        { s with
          ecarry := BitVec.ofNat 8 (w₂ / 16), ecnt := BitVec.ofNat 3 (c + 8 - 10)
          tokens := s.tokens ++
            [⟨.char, alpha (BitVec.ofNat 5 (w / 128))⟩, ⟨.char, alpha (BitVec.ofNat 5 (w₁ / 128))⟩] })

/-- R113: `ENC.BYTE b` case by case, the rows of its table, and on the abstract carry: the carry bits, then the byte's, are
the groups', then the new carry's, fewer than 5. -/
def Obligations.EncByteCaseByCase : Prop :=
  ∀ (b : Byte) (s : State), s.EncodeOk →
    let gives (syms : List Symbol) (carry : Byte) (n : BitVec 3) : Prop :=
      exec (.encByte b) s =
        .next { s with ecarry := carry, ecnt := n, tokens := s.tokens ++ syms.map fun v => ⟨.char, alpha v⟩ }
    (s.ecnt = 0#3 → gives [b.extractLsb 7 3] (b.extractLsb 2 0 ++ 0#5) 3#3) ∧
    (s.ecnt = 1#3 → gives [s.ecarry.extractLsb 7 7 ++ b.extractLsb 7 4] (b.extractLsb 3 0 ++ 0#4) 4#3) ∧
    (s.ecnt = 2#3 → gives [s.ecarry.extractLsb 7 6 ++ b.extractLsb 7 5, b.extractLsb 4 0] 0x00#8 0#3) ∧
    (s.ecnt = 3#3 → gives [s.ecarry.extractLsb 7 5 ++ b.extractLsb 7 6, b.extractLsb 5 1] (b.extractLsb 0 0 ++ 0#7) 1#3) ∧
    (s.ecnt = 4#3 → gives [s.ecarry.extractLsb 7 4 ++ b.extractLsb 7 7, b.extractLsb 6 2] (b.extractLsb 1 0 ++ 0#6) 2#3) ∧
    ∃ (syms : List Symbol) (t : State), exec (.encByte b) s = .next t ∧
      t.tokens = s.tokens ++ (syms.map fun v => ⟨.char, alpha v⟩) ∧
      s.carryBits ++ bitsOf b = streamOf syms ++ t.carryBits ∧ t.carryBits.length < 5

/-- R114: the state after `ENC.BYTE` depends only on the byte and on `ECNT` before it, and the carry is the low-order end of
that byte. -/
def Obligations.CarryComesFromTheLastByte : Prop :=
  ∀ (b : Byte) (s s' t t' : State), exec (.encByte b) s = .next t → exec (.encByte b) s' = .next t' →
    s.ecnt = s'.ecnt → SameEncode t t' ∧ t.carryBits <:+ bitsOf b

/-- R116: `ENC.END`, from every state that meets its precondition and the zero fill of R21: one last symbol `ECARRY[7:3]` if
carry bits remain, none otherwise, and the start-of-message state. -/
def Obligations.EncEndFlushesTheCarry : Prop :=
  decode 0x200#12 = .legal .encEnd ∧
  ∀ s : State, s.ecnt.toNat ≤ 4 → s.ecarry.toNat % 2 ^ (8 - s.ecnt.toNat) = 0 →
    exec .encEnd s = .next
      { s with
        ecarry := 0x00#8, ecnt := 0#3
        tokens := s.tokens ++
          if s.ecnt.toNat > 0 then [⟨.char, alpha (BitVec.ofNat 5 (s.ecarry.toNat / 8))⟩] else [] }

/-- R117: the count before `ENC.END` and the final symbol, by the length `n` of the message, `B` being its last byte. -/
def Obligations.FinalSymbolByMessageLength : Prop :=
  ∀ (s : State) (bs : List Byte) (B : Byte),
    let n := (bs ++ [B]).length
    ∃ t, perform (.encStart :: (bs ++ [B]).map .encByte) s = .next t ∧ t.ecnt.toNat = (3 * n) % 5 ∧
      exec .encEnd t = .next
        { t with
          ecarry := 0x00#8, ecnt := 0#3
          tokens := t.tokens ++
            if n % 5 = 0 then []
            else if n % 5 = 1 then [⟨.char, alpha (B.extractLsb 2 0 ++ 0b00#2)⟩]
            else if n % 5 = 2 then [⟨.char, alpha (B.extractLsb 0 0 ++ 0b0000#4)⟩]
            else if n % 5 = 3 then [⟨.char, alpha (B.extractLsb 3 0 ++ 0b0#1)⟩]
            else [⟨.char, alpha (B.extractLsb 1 0 ++ 0b000#3)⟩] }

/-- R119: a message of `n` bytes returns `floor(8n/5)` characters from its `ENC.BYTE` commands and `ceil(8n/5)` in all, the
one more from `ENC.END` when `8n` is no multiple of 5; they are all `CHAR` tokens. -/
def Obligations.EncodeTokenCount : Prop :=
  ∀ (s : State) (bs : List Byte), ∃ (t u : State) (cs ds : List Byte),
    perform (.encStart :: bs.map .encByte) s = .next t ∧ exec .encEnd t = .next u ∧
      t.tokens = s.tokens ++ cs.map (fun c => ⟨.char, c⟩) ∧ u.tokens = t.tokens ++ ds.map (fun c => ⟨.char, c⟩) ∧
      cs.length = 8 * bs.length / 5 ∧ ds.length = (if 8 * bs.length % 5 = 0 then 0 else 1) ∧
      cs.length + ds.length = (8 * bs.length + 4) / 5

/-! ### The decode unit (spec/42_decode.md, spec/60_exceptions.md) -/

/-- R130: `DEC.START`, from every state. -/
def Obligations.DecStartClearsTheUnit : Prop :=
  decode 0x400#12 = .legal .decStart ∧
    ∀ s : State, exec .decStart s = .next { s with dacc := 0x00#7, dcnt := 0#3, derr := false, derrb := 0x00#8 }

/-- R132 and R182: `DEC.CHAR c` with `DERR = 0`, the pseudocode in unbounded natural numbers (R8), from every state with the
zero fill of R25 and the error record of R28. An invalid character enters the error state: `DERR`, `DERRB` and the `ERR`
token, nothing else. -/
def Obligations.DecCharFollowsItsPseudocode : Prop :=
  (∀ c : Byte, decode (0x500#12 + c.setWidth 12) = .legal (.decChar c)) ∧
  ∀ (c : Byte) (s : State), s.derr = false → s.derrb = 0x00#8 →
    s.dacc.toNat % 2 ^ (7 - s.dcnt.toNat) = 0 →
    (entryValid (decTab c) = false →
      exec (.decChar c) s = .next { s with derr := true, derrb := c, tokens := s.tokens ++ [⟨.err, c⟩] }) ∧
    (entryValid (decTab c) = true →
      let v := (entryValue (decTab c)).toNat
      let n := s.dcnt.toNat
      let w := (s.dacc.toNat <<< 5) ||| (v <<< (7 - n))
      exec (.decChar c) s = .next
        (if n + 5 ≥ 8 then
          { s with
            dacc := BitVec.ofNat 7 ((w <<< 8) % 4096 / 32), dcnt := BitVec.ofNat 3 (n + 5 - 8)
            tokens := s.tokens ++ [⟨.byte, BitVec.ofNat 8 (w / 16)⟩] }
        else { s with dacc := BitVec.ofNat 7 (w / 32), dcnt := BitVec.ofNat 3 (n + 5) }))

/-- R134: the valid-character case of `DEC.CHAR` case by case, the rows of its table, and on the abstract accumulator: the
held bits, then the symbol's, are the byte's if there are 8, then the held ones, fewer than 8. -/
def Obligations.DecCharCaseByCase : Prop :=
  ∀ (c : Byte) (s : State), s.DecodeOk → s.derr = false → entryValid (decTab c) = true →
    let v := entryValue (decTab c)
    let gives (bytes : List Byte) (acc : BitVec 7) (n : BitVec 3) : Prop :=
      exec (.decChar c) s =
        .next { s with dacc := acc, dcnt := n, tokens := s.tokens ++ bytes.map fun b => ⟨.byte, b⟩ }
    (s.dcnt = 0#3 → gives [] (v ++ 0#2) 5#3) ∧
    (s.dcnt = 1#3 → gives [] (s.dacc.extractLsb 6 6 ++ v ++ 0#1) 6#3) ∧
    (s.dcnt = 2#3 → gives [] (s.dacc.extractLsb 6 5 ++ v) 7#3) ∧
    (s.dcnt = 3#3 → gives [s.dacc.extractLsb 6 4 ++ v] 0x00#7 0#3) ∧
    (s.dcnt = 4#3 → gives [s.dacc.extractLsb 6 3 ++ v.extractLsb 4 1] (v.extractLsb 0 0 ++ 0#6) 1#3) ∧
    (s.dcnt = 5#3 → gives [s.dacc.extractLsb 6 2 ++ v.extractLsb 4 2] (v.extractLsb 1 0 ++ 0#5) 2#3) ∧
    (s.dcnt = 6#3 → gives [s.dacc.extractLsb 6 1 ++ v.extractLsb 4 3] (v.extractLsb 2 0 ++ 0#4) 3#3) ∧
    (s.dcnt = 7#3 → gives [s.dacc.extractLsb 6 0 ++ v.extractLsb 4 4] (v.extractLsb 3 0 ++ 0#3) 4#3) ∧
    ∃ (bytes : List Byte) (t : State), exec (.decChar c) s = .next t ∧
      t.tokens = s.tokens ++ (bytes.map fun b => ⟨.byte, b⟩) ∧
      s.bufferBits ++ bitsOf v = streamOf bytes ++ t.bufferBits ∧ t.bufferBits.length < 8

/-- R133: with `DERR = 1` the command `DEC.CHAR c` is ignored, whatever `c` is. -/
def Obligations.DecCharIgnoredAfterError : Prop :=
  ∀ (c : Byte) (s : State), s.DecodeOk → s.derr = true → exec (.decChar c) s = .next s

/-- R136 and R137: `DEC.END` discards the leftover bits whatever they are and returns no token; with `DERR = 1` it is
ignored. -/
def Obligations.DecEndDiscardsTheLeftover : Prop :=
  decode 0x600#12 = .legal .decEnd ∧
  ∀ s : State, s.DecodeOk →
    (s.derr = false → exec .decEnd s = .next { s with dacc := 0x00#7, dcnt := 0#3 }) ∧
    (s.derr = true → exec .decEnd s = .next s)

/-- R181: the 196 bytes that raise InvalidSymbol. -/
def Obligations.BytesThatRaiseInvalidSymbol : Prop :=
  let invalid (c : Byte) : Prop :=
    c.toNat ≤ 0x2F ∨ (0x3A ≤ c.toNat ∧ c.toNat ≤ 0x40) ∨ c.toNat = 0x55 ∨ (0x5B ≤ c.toNat ∧ c.toNat ≤ 0x60) ∨
      c.toNat = 0x75 ∨ 0x7B ≤ c.toNat
  (∀ (c : Byte) (s : State), s.DecodeOk → s.derr = false →
    ∃ t, exec (.decChar c) s = .next t ∧ (t.derr = true ↔ invalid c)) ∧
  ((List.range 256).countP fun n => invalidSymbol (BitVec.ofNat 8 n)) = 196

/-- R140: a message of `m` valid characters returns `floor(5m/8)` `BYTE` tokens, all before `DEC.END`; one whose first invalid
character is at position `j` returns `floor(5j/8)` of them, then one `ERR`, and nothing more. -/
def Obligations.DecodeTokenCount : Prop :=
  (∀ (s : State) (cs : List Byte), AllValid cs → ∃ (t u : State) (bytes : List Byte),
    perform (.decStart :: cs.map .decChar) s = .next t ∧ exec .decEnd t = .next u ∧
      t.tokens = s.tokens ++ bytes.map (fun b => ⟨.byte, b⟩) ∧ u.tokens = t.tokens ∧
      bytes.length = 5 * cs.length / 8) ∧
  (∀ (s : State) (pre post : List Byte) (c : Byte), AllValid pre → invalidSymbol c = true →
    ∃ (t : State) (bytes : List Byte), perform (decodeCommands (pre ++ c :: post)) s = .next t ∧
      t.tokens = s.tokens ++ bytes.map (fun b => ⟨.byte, b⟩) ++ [⟨.err, c⟩] ∧ bytes.length = 5 * pre.length / 8)

/-- R141: the status of the decode unit as a two-state machine. `ENC.*` and `LUT.*` never change it; in `FAILED`, `DEC.CHAR`
and `DEC.END` do nothing; reset enters `RUN`. The status outputs of R88 are the two error registers, 1 and 8 bits; of the
operations only `DEC.START` and `DEC.CHAR` change them, and of the steps only those that take one of these or a reset (the
steps on the model's queue, notes/assumptions/1.md). -/
def Obligations.DecodeStatusMachine : Prop :=
  (State.reset.derr = false ∧ ∀ s : State, s.resetRegisters.derr = false) ∧
  (∀ (i : Instr) (s t : State), exec i s = .next t →
    t.derr =
      match i with
      | .decStart => false
      | .decChar c => s.derr || invalidSymbol c
      | .decEnd => s.derr
      | .encStart => s.derr
      | .encByte _ => s.derr
      | .encEnd => s.derr
      | .lutS2c _ => s.derr
      | .lutC2s _ => s.derr) ∧
  (∀ (c : Byte) (s t : State), s.derr = true →
    (exec (.decChar c) s = .next t → t = s) ∧ (exec .decEnd s = .next t → t = s)) ∧
  (∀ s : State, s.derrOut = BitVec.ofBool s.derr ∧ s.derrbOut = s.derrb) ∧
  (∀ (i : Instr) (s t : State), exec i s = .next t → (t.derrOut ≠ s.derrOut ∨ t.derrbOut ≠ s.derrbOut) →
    i = .decStart ∨ ∃ c, i = .decChar c) ∧
  (∀ s t : State, step s = .next t → (t.derrOut ≠ s.derrOut ∨ t.derrbOut ≠ s.derrbOut) →
    ∃ rest, s.inputs = .reset :: rest ∨
      ∃ w, s.inputs = .command w :: rest ∧ (decode w = .legal .decStart ∨ ∃ c, decode w = .legal (.decChar c)))

/-- R186: the error state is left only by `DEC.START` or reset, which discard the accumulator with it. Any other commands leave every decode register alone, the
first offending byte in `DERRB` among them, and return no `BYTE` and no `ERR`. -/
def Obligations.ErrorIsStickyUntilDecStart : Prop :=
  (∀ (is : List Instr) (s t : State), s.derr = true → .decStart ∉ is → perform is s = .next t →
    SameDecode s t ∧ dataOf .byte (newTokens s t) = [] ∧ dataOf .err (newTokens s t) = []) ∧
  ∀ s : State, (∃ t, exec .decStart s = .next t ∧ t.dacc = 0x00#7 ∧ t.dcnt = 0#3 ∧ t.derr = false ∧ t.derrb = 0x00#8) ∧
    s.resetRegisters.dacc = 0x00#7 ∧ s.resetRegisters.dcnt = 0#3 ∧ s.resetRegisters.derr = false ∧
    s.resetRegisters.derrb = 0x00#8

/-- R138: the leftover before `DEC.END` by message length, discarded for every length; and how it compares with what the
encoder produces: a message of `n` bytes is encoded to a length of 0, 2, 4, 5 or 7 modulo 8 by `n mod 5`, and the leftover of
decoding it is the pad bits, all zero. -/
def Obligations.LeftoverByMessageLength : Prop :=
  (∀ (s : State) (cs : List Byte), AllValid cs →
    ∃ t, perform (.decStart :: cs.map .decChar) s = .next t ∧ t.dcnt.toNat = (5 * cs.length) % 8 ∧
      exec .decEnd t = .next { t with dacc := 0x00#7, dcnt := 0#3 }) ∧
  (∀ (s : State) (bs : List Byte), ∃ (cs : List Byte) (t : State), encodeFrom s bs = some cs ∧ AllValid cs ∧
    (cs.length % 8 = if bs.length % 5 = 0 then 0 else if bs.length % 5 = 1 then 2 else if bs.length % 5 = 2 then 4
      else if bs.length % 5 = 3 then 5 else 7) ∧
    perform (.decStart :: cs.map .decChar) s = .next t ∧ t.bufferBits = List.replicate (padBits (8 * bs.length)) false)

/-! ### The whole machine (spec/10_state.md, spec/92_eei_decisions.md D16) -/

/-- R34: what each operation may write. `ENC.*` touch only the encode registers, `DEC.*` only the decode registers, `DEC.END`
of these only `DACC` and `DCNT`, and `LUT.*` none. -/
def Obligations.UnitsAreDisjoint : Prop :=
  ∀ (i : Instr) (s t : State), exec i s = .next t →
    t.inputs = s.inputs ∧ (i.isEnc = false → SameEncode s t) ∧ (i.isDec = false → SameDecode s t) ∧
      (i = .decEnd → t.derr = s.derr ∧ t.derrb = s.derrb)

/-- R34: an `ENC.*` and a `DEC.*` command commute: the same final registers and the same tokens for each. -/
def Obligations.EncodeAndDecodeCommute : Prop :=
  ∀ (e d : Instr) (s u t : State), e.isEnc = true → d.isDec = true → exec e s = .next u → exec d u = .next t →
    ∃ u' t', exec d s = .next u' ∧ exec e u' = .next t' ∧ SameEncode t t' ∧ SameDecode t t' ∧
      newTokens s u = newTokens u' t' ∧ newTokens u t = newTokens s u'

/-- R21, R24, R25, R28: every step keeps the invariant on the registers. -/
def Obligations.StepKeepsTheInvariant : Prop :=
  ∀ s t : State, s.Inv → step s = .next t → t.Inv

/-- The invariant holds after reset (R33). -/
def Obligations.ResetMeetsTheInvariant : Prop := State.reset.Inv

/-- R118, R139: in every state that meets the invariant every legal command completes. -/
def Obligations.LegalCommandsComplete : Prop :=
  ∀ (i : Instr) (s : State), s.Inv → ∃ t, exec i s = .next t

/-- R12, R118, R139: from every state that meets the invariant, a run takes any finite sequence of legal commands and resets
without a stop, and ends in a state that meets the invariant. The queue of what was issued is the model's own
(notes/assumptions/1.md), and a run longer than it goes on through the model's idle steps (notes/assumptions/4.md). -/
def Obligations.LegalSequencesRunToTheEnd : Prop :=
  ∀ (k : Nat) (s : State), s.Inv →
    (∀ e ∈ s.inputs, e = .reset ∨ ∃ i, e = .command (encode i)) →
      ∃ t, Sys2Proof.core.run k s = .next t ∧ t.Inv ∧ t.inputs = s.inputs.drop k

/-- D16: in a state that no command sequence reaches, the operations that read the registers are refused. Which operations
check which registers is the model's choice (notes/assumptions/3.md). -/
def Obligations.UnreachableStatesAreRefused : Prop :=
  ∀ (b : Byte) (s : State),
    (¬s.EncodeOk → exec (.encByte b) s = .refused .unreachableEncodeState ∧
      exec .encEnd s = .refused .unreachableEncodeState) ∧
    (¬s.DecodeOk → exec (.decChar b) s = .refused .unreachableDecodeState ∧
      exec .decEnd s = .refused .unreachableDecodeState)

/-- R32: bit conservation, held after reset and kept by every step. -/
def Obligations.BitsAreConserved : Prop :=
  Conserved State.reset Counters.zero ∧
  ∀ (s t : State) (g : Counters), s.Inv → Conserved s g → step s = .next t → Conserved t (g.afterStep s t)

/-- R24, R26: `ECNT = (8 * ein) mod 5`, at most 4, and `DCNT = (5 * din) mod 8`, held after reset and kept by every step. -/
def Obligations.CountsFollowTheMessageLength : Prop :=
  CountsTracked State.reset Counters.zero ∧
  ∀ (s t : State) (g : Counters), s.Inv → CountsTracked s g → step s = .next t →
    CountsTracked t (g.afterStep s t) ∧ t.ecnt.toNat ≤ 4

/-- R62: a step of one instance is a step of that block alone, and every other instance is as it was. The list of instances is
the model's own (notes/assumptions/12.md). -/
def Obligations.InstancesAreIsolated : Prop :=
  ∀ (all : Instances) (k : Fin all.length),
    (∀ t, step all[k] = .next t → stepInstance all k = .next (all.set k t)) ∧
    ∀ all', stepInstance all k = .next all' →
      all'.length = all.length ∧ ∀ j : Nat, j ≠ k → all'[j]? = all[j]?

/-! ### Whole messages (spec/43_messages.md) -/

/-- R150, R151, R152: `encode` in closed form, from every state: the symbol values computed inside the operations are the
message's bits, zero-padded to whole groups, cut into groups of 5; the characters returned are theirs, and give them back
through `DECTAB`; the encode unit is left in its start-of-message state and the rest is untouched. -/
def Obligations.EncodeClosedForm : Prop :=
  ∀ (s : State) (bs : List Byte),
    perform (encodeCommands bs) s = .next
      { s with
        ecarry := 0x00#8, ecnt := 0#3
        tokens := s.tokens ++ (closedEncode bs).map fun v => ⟨.char, alpha v⟩ } ∧
    encodeFrom s bs = some ((closedEncode bs).map alpha) ∧ encSymsFrom s bs = some (closedEncode bs) ∧
    (encodeFrom s bs).map symbolsOf = encSymsFrom s bs ∧
    5 * (closedEncode bs).length = 8 * bs.length + padBits (8 * bs.length)

/-- R153, R154: `decode` in closed form, from every state. A valid message gives its symbols' bits cut into bytes and leaves
the unit in its start-of-message state; a message with an invalid character gives the bytes before the first one and that
character, whatever follows it. -/
def Obligations.DecodeClosedForm : Prop :=
  (∀ (s : State) (cs : List Byte), AllValid cs →
    perform (decodeCommands cs) s = .next
      { s with
        dacc := 0x00#7, dcnt := 0#3, derr := false, derrb := 0x00#8
        tokens := s.tokens ++ (closedDecode cs).map fun b => ⟨.byte, b⟩ } ∧
    decodeFrom s cs = some (.ok (closedDecode cs)) ∧ (closedDecode cs).length = 5 * cs.length / 8) ∧
  (∀ (s : State) (pre post : List Byte) (c : Byte), AllValid pre → invalidSymbol c = true →
    (∃ t, perform (decodeCommands (pre ++ c :: post)) s = .next t ∧ t.derr = true ∧ t.derrb = c ∧ SameEncode s t ∧
      t.tokens = s.tokens ++ (closedDecode pre).map (fun b => ⟨.byte, b⟩) ++ [⟨.err, c⟩]) ∧
    decodeFrom s (pre ++ c :: post) = some (.err (closedDecode pre) c))

/-- R160: for all byte sequences `b`, `decode(encode(b)) == b`. -/
def Obligations.DecodeOfEncodeIsTheMessage : Prop :=
  ∀ (s s' : State) (bs : List Byte), ∃ cs, encodeFrom s bs = some cs ∧ decodeFrom s' cs = some (.ok bs)

/-- R161: the two length laws. -/
def Obligations.LengthLaws : Prop :=
  (∀ (s : State) (bs : List Byte), ∃ cs, encodeFrom s bs = some cs ∧ cs.length = (8 * bs.length + 4) / 5) ∧
  (∀ (s : State) (cs : List Byte), AllValid cs →
    ∃ bytes, decodeFrom s cs = some (.ok bytes) ∧ bytes.length = 5 * cs.length / 8)

/-- R162: flipping the case of any letters gives the same shape and the same bytes; in the `Err` shape the offending byte is
the byte as given, at the same position. -/
def Obligations.DecodeIgnoresCase : Prop :=
  ∀ (s s' : State) (cs cs' : List Byte), List.Forall₂ CaseVariant cs cs' →
    cs.findIdx? invalidSymbol = cs'.findIdx? invalidSymbol ∧
    ∃ r r', decodeFrom s cs = some r ∧ decodeFrom s' cs' = some r' ∧
      match r, r' with
      | .ok a, .ok b => a = b
      | .err a c, .err b d => a = b ∧ CaseVariant c d ∧
          cs.find? invalidSymbol = some c ∧ cs'.find? invalidSymbol = some d
      | .ok _, .err _ _ => False
      | .err _ _, .ok _ => False

/-- R163: look-alikes in place of `0` and `1`, at any positions, give the same output. -/
def Obligations.DecodeFoldsLookAlikes : Prop :=
  ∀ (s s' : State) (cs cs' : List Byte), List.Forall₂ LookAlike cs cs' →
    ∃ r, decodeFrom s cs = some r ∧ decodeFrom s' cs' = some r

/-- R164: an extra trailing symbol changes nothing if and only if `(5 * m) mod 8 <= 2`, and otherwise adds one byte; more
generally the result depends only on the bits of the complete bytes. -/
def Obligations.DecodeIsLenientAboutTheTail : Prop :=
  (∀ (s s' : State) (cs : List Byte) (x : Byte), AllValid cs → invalidSymbol x = false →
    ((decodeFrom s (cs ++ [x]) = decodeFrom s' cs ↔ (5 * cs.length) % 8 ≤ 2) ∧
      (¬(5 * cs.length) % 8 ≤ 2 → ∃ bytes b, decodeFrom s' cs = some (.ok bytes) ∧
        decodeFrom s (cs ++ [x]) = some (.ok (bytes ++ [b]))))) ∧
  (∀ (s s' : State) (cs cs' : List Byte), AllValid cs → AllValid cs' → cs.length = cs'.length →
    (streamOf (symbolsOf cs)).take (8 * (5 * cs.length / 8)) = (streamOf (symbolsOf cs')).take (8 * (5 * cs.length / 8)) →
      decodeFrom s cs = decodeFrom s' cs')

/-- R165: `decode` has the `Err` shape if and only if some character has the entry `0x00`, and reports the first such one;
`U`, `u`, space and `!` are such characters. -/
def Obligations.DecodeRejectsInvalidCharacters : Prop :=
  (∀ (s : State) (cs : List Byte), ∃ r, decodeFrom s cs = some r ∧
    ((∃ bytes c, r = .err bytes c) ↔ ∃ c ∈ cs, decTab c = 0x00#6) ∧
    ∀ bytes c, r = .err bytes c → cs.find? (fun d => decTab d == 0x00#6) = some c) ∧
  decTab 0x55#8 = 0x00#6 ∧ decTab 0x75#8 = 0x00#6 ∧ decTab 0x20#8 = 0x00#6 ∧ decTab 0x21#8 = 0x00#6

/-- R167: `encode(decode(cs)) = cs` exactly when `cs` is all canonical characters, has a length that the encoder produces, and
has zero leftover bits. -/
def Obligations.EncodeOfDecodeIsCanonical : Prop :=
  ∀ (s s' : State) (cs bytes : List Byte), decodeFrom s cs = some (.ok bytes) →
    (encodeFrom s' bytes = some cs ↔
      (∀ c ∈ cs, ∃ v, c = alpha v) ∧
      (cs.length % 8 = 0 ∨ cs.length % 8 = 2 ∨ cs.length % 8 = 4 ∨ cs.length % 8 = 5 ∨ cs.length % 8 = 7) ∧
      ∀ x ∈ (streamOf (symbolsOf cs)).drop (8 * (5 * cs.length / 8)), x = false)

/-- R168: concatenation, where no bits cross the joint, and an example of each kind where some do. -/
def Obligations.MessagesConcatenate : Prop :=
  (∀ (s : State) (x y : List Byte), x.length % 5 = 0 → ∃ a b,
    encodeFrom s x = some a ∧ encodeFrom s y = some b ∧ encodeFrom s (x ++ y) = some (a ++ b)) ∧
  (∀ (s : State) (x y : List Byte), AllValid x → AllValid y → x.length % 8 = 0 → ∃ a b,
    decodeFrom s x = some (.ok a) ∧ decodeFrom s y = some (.ok b) ∧ decodeFrom s (x ++ y) = some (.ok (a ++ b))) ∧
  (∀ s : State, encodeFrom s [0x66#8] = some [0x43#8, 0x52#8] ∧ encodeFrom s [0x6F#8] = some [0x44#8, 0x57#8] ∧
    encodeFrom s [0x66#8, 0x6F#8] = some [0x43#8, 0x53#8, 0x51#8, 0x47#8]) ∧
  (∀ s : State, decodeFrom s [0x43#8] = some (.ok []) ∧ decodeFrom s [0x52#8] = some (.ok []) ∧
    decodeFrom s [0x43#8, 0x52#8] = some (.ok [0x66#8]))

/-- R169: in any interleaving on one instance, the encode unit's registers and tokens are those of its own commands alone,
and the decode unit's likewise; `LUT.*` commands change nothing for either. -/
def Obligations.InterleavedMessagesDoNotMix : Prop :=
  ∀ (is : List Instr) (s t : State), perform is s = .next t →
    (∃ u, perform (is.filter Instr.isEnc) s = .next u ∧ SameEncode u t ∧
      newTokens s u = (newTokens s t).filter fun tok => tok.kind == .char) ∧
    (∃ u, perform (is.filter Instr.isDec) s = .next u ∧ SameDecode u t ∧
      newTokens s u = (newTokens s t).filter fun tok => tok.kind == .byte || tok.kind == .err)
end

