-- ==== Sys2Proof/Laws/BitString.lean ====
section
/-! SUPPORT. Bit strings: lengths, values and their bits, and cutting a stream into values. -/

namespace Sys2Proof.Machine

@[simp] theorem length_bitsOf {n : Nat} (v : BitVec n) : (bitsOf v).length = n := by simp [bitsOf]

@[simp] theorem getElem_bitsOf {n i : Nat} (v : BitVec n) (h : i < (bitsOf v).length) :
    (bitsOf v)[i] = v.getMsbD i := by simp [bitsOf]

@[simp] theorem streamOf_nil {n : Nat} : streamOf ([] : List (BitVec n)) = [] := rfl

@[simp] theorem streamOf_cons {n : Nat} (v : BitVec n) (vs : List (BitVec n)) :
    streamOf (v :: vs) = bitsOf v ++ streamOf vs := rfl

@[simp] theorem streamOf_append {n : Nat} (vs ws : List (BitVec n)) :
    streamOf (vs ++ ws) = streamOf vs ++ streamOf ws := by simp [streamOf]

@[simp] theorem length_streamOf {n : Nat} (vs : List (BitVec n)) : (streamOf vs).length = n * vs.length := by
  induction vs with
  | nil => simp
  | cons v vs ih => simp [ih, Nat.mul_add, Nat.add_comm]

@[simp] theorem numberOf_nil : numberOf [] = 0 := rfl

/-- One bit more at the end of a number. -/
theorem numberOf_concat (l : List Bool) (x : Bool) : numberOf (l ++ [x]) = 2 * numberOf l + x.toNat := by
  simp [numberOf]

theorem testBit_numberOf (l : List Bool) : ∀ i, (numberOf l).testBit i = l.reverse.getD i false := by
  induction l using List.reverseRecOn with
  | nil => simp
  | append_singleton l x ih =>
    intro i
    rw [numberOf_concat]
    cases i with
    | zero => cases x <;> simp [Nat.testBit_zero]
    | succ i =>
      have h : (2 * numberOf l + x.toNat) / 2 = numberOf l := by
        have := Bool.toNat_lt x
        omega
      rw [Nat.testBit_succ, h, ih]
      simp

/-- The bits of the value of a string of the right length are that string. -/
theorem bitsOf_valueOf {n : Nat} {l : List Bool} (h : l.length = n) : bitsOf (valueOf n l) = l := by
  apply List.ext_getElem (by simp [h])
  intro i h₁ h₂
  have hi : i < n := by simpa using h₁
  have hr : n - 1 - i < l.reverse.length := by simp [h]; omega
  have hx : l.length - 1 - (n - 1 - i) = i := by omega
  rw [getElem_bitsOf, BitVec.getMsbD, valueOf, BitVec.getLsbD_ofNat, testBit_numberOf, List.getD_eq_getElem _ _ hr,
    List.getElem_reverse]
  simp only [hx]
  simp [hi]
  omega

/-- A value is determined by its bits. -/
theorem bitsOf_injective {n : Nat} {v w : BitVec n} (h : bitsOf v = bitsOf w) : v = w := by
  apply BitVec.eq_of_getMsbD_eq
  intro i hi
  have := congrArg (fun l => l[i]?) h
  simpa [List.getElem?_eq_getElem, hi] using this

/-- The value of the bits of a value is that value. -/
@[simp] theorem valueOf_bitsOf {n : Nat} (v : BitVec n) : valueOf n (bitsOf v) = v :=
  bitsOf_injective (bitsOf_valueOf (by simp))

/-! ### The bits of shifted, widened, sliced and joined values -/

theorem bitsOf_shiftLeft {n : Nat} (v : BitVec n) (k : Nat) :
    bitsOf (v <<< k) = (bitsOf v).drop k ++ List.replicate (min k n) false := by
  apply List.ext_getElem
  · simp; omega
  · intro i h₁ h₂
    have hi : i < n := by simpa using h₁
    simp only [getElem_bitsOf, List.getElem_append, List.length_drop, length_bitsOf, List.getElem_drop,
      List.getElem_replicate, BitVec.getMsbD_shiftLeft]
    split
    · rw [Nat.add_comm]
    · exact BitVec.getMsbD_of_ge _ _ (by omega)

theorem bitsOf_setWidth {n m : Nat} (h : n ≤ m) (v : BitVec n) :
    bitsOf (v.setWidth m) = List.replicate (m - n) false ++ bitsOf v := by
  apply List.ext_getElem
  · simp; omega
  · intro i h₁ h₂
    have hi : i < m := by simpa using h₁
    simp only [getElem_bitsOf, List.getElem_append, List.length_replicate, List.getElem_replicate,
      BitVec.getMsbD, BitVec.getLsbD_setWidth]
    split
    · simp [BitVec.getLsbD_of_ge v (m - 1 - i) (by omega)]
    · have h₃ : i - (m - n) < n := by omega
      have h₄ : m - 1 - i < m := by omega
      have h₅ : n - 1 - (i - (m - n)) = m - 1 - i := by omega
      simp [hi, h₃, h₄, h₅]

theorem bitsOf_append {n m : Nat} (v : BitVec n) (w : BitVec m) : bitsOf (v ++ w) = bitsOf v ++ bitsOf w := by
  apply List.ext_getElem
  · simp
  · intro i h₁ h₂
    simp only [getElem_bitsOf, List.getElem_append, length_bitsOf, BitVec.getMsbD_append]
    split <;> rename_i h <;> simp_all

theorem bitsOf_or {n : Nat} (v w : BitVec n) : bitsOf (v ||| w) = List.zipWith or (bitsOf v) (bitsOf w) := by
  apply List.ext_getElem <;> simp

/-- Joining with a string that is false where the other one begins. -/
theorem zipWith_or_append {a b : List Bool} :
    List.zipWith or (a ++ List.replicate b.length false) (List.replicate a.length false ++ b) = a ++ b := by
  rw [List.zipWith_append (by simp)]
  congr 1
  · apply List.ext_getElem <;> simp
  · apply List.ext_getElem <;> simp

/-- A shift leaves nothing exactly when every bit below the ones shifted out is zero. -/
theorem shiftLeft_eq_zero_iff {n k : Nat} (v : BitVec n) :
    v <<< k = 0#n ↔ (bitsOf v).drop k = List.replicate (n - k) false := by
  have hz : bitsOf (0#n) = List.replicate n false := by apply List.ext_getElem <;> simp
  constructor
  · intro h
    have := congrArg bitsOf h
    rw [bitsOf_shiftLeft, hz] at this
    have := congrArg (List.take (n - k)) this
    simpa [List.take_append_of_le_length] using this
  · intro h
    apply bitsOf_injective
    rw [bitsOf_shiftLeft, hz, h, List.replicate_append_replicate]
    congr 1
    omega

/-- A shift leaves nothing exactly when the number is a multiple of what the shifted-out bits count. -/
theorem shiftLeft_eq_zero_iff_mod {n k : Nat} (v : BitVec n) (h : k ≤ n) :
    v <<< k = 0#n ↔ v.toNat % 2 ^ (n - k) = 0 := by
  have hp : 2 ^ n = 2 ^ (n - k) * 2 ^ k := by
    rw [← Nat.pow_add]
    congr 1
    omega
  rw [BitVec.toNat_eq]
  simp only [BitVec.toNat_shiftLeft, Nat.shiftLeft_eq, BitVec.toNat_ofNat, Nat.zero_mod]
  rw [hp, Nat.mul_mod_mul_right]
  simp

/-- If two strings end alike, the shorter end is the last part of the longer one. -/
theorem eq_drop_of_append_eq {a b c d : List Bool} (h : a ++ b = c ++ d) (hl : d.length ≤ b.length) :
    d = b.drop (b.length - d.length) := by
  have h₁ : d <:+ a ++ b := by
    rw [h]
    exact List.suffix_append _ _
  exact List.suffix_iff_eq_drop.mp (List.suffix_of_suffix_length_le h₁ (List.suffix_append _ _) hl)

/-- A string shorter than a value yields none. -/
theorem cut_of_lt {n : Nat} {l : List Bool} (h : l.length < n) : cut n l = [] := by
  simp [cut, Nat.div_eq_of_lt h]

/-- A value at the front of a string is the first one cut from it. -/
theorem cut_bitsOf_append {n : Nat} (hn : 0 < n) (v : BitVec n) (l : List Bool) :
    cut n (bitsOf v ++ l) = v :: cut n l := by
  have hd : (n + l.length) / n = l.length / n + 1 := by
    rw [Nat.add_div_left _ hn]
  simp only [cut, List.length_append, length_bitsOf, hd, List.range_succ_eq_map, List.map_cons, List.map_map]
  congr 1
  · simp
  · apply List.map_congr_left
    intro j _
    have h : n * (j + 1) = (bitsOf v).length + n * j := by simp; ring
    simp only [Function.comp_apply, Nat.succ_eq_add_one, h, List.drop_length_add_append]

/-- Cutting a stream of values with a rest too short for one more gives the values back. -/
theorem cut_streamOf_append {n : Nat} (vs : List (BitVec n)) {r : List Bool} (h : r.length < n) :
    cut n (streamOf vs ++ r) = vs := by
  induction vs with
  | nil => simpa using cut_of_lt h
  | cons v vs ih => rw [streamOf_cons, List.append_assoc, cut_bitsOf_append (by omega), ih]

/-- A sequence of values is determined by its bits. -/
theorem streamOf_injective {n : Nat} (hn : 0 < n) {vs ws : List (BitVec n)} (h : streamOf vs = streamOf ws) : vs = ws := by
  have h₁ := cut_streamOf_append vs (r := []) (by simpa using hn)
  have h₂ := cut_streamOf_append ws (r := []) (by simpa using hn)
  rw [h, h₂] at h₁
  exact h₁.symm

/-- A string is the stream of the values cut from it and a rest too short for one more. -/
theorem streamOf_cut_append {n : Nat} (hn : 0 < n) (l : List Bool) :
    ∃ r, streamOf (cut n l) ++ r = l ∧ r.length < n := by
  induction hk : l.length / n generalizing l with
  | zero =>
    have h : l.length < n := (Nat.div_eq_zero_iff_lt hn).mp hk
    exact ⟨l, by simp [cut_of_lt h], h⟩
  | succ k ih =>
    have hl : n ≤ l.length := by
      by_contra hc
      rw [Nat.div_eq_of_lt (by omega)] at hk
      omega
    have hv : bitsOf (valueOf n (l.take n)) = l.take n := bitsOf_valueOf (by simp [hl])
    have hd : (l.drop n).length / n = k := by
      rw [List.length_drop]
      have := Nat.add_div_left (l.length - n) hn
      rw [Nat.add_sub_cancel' hl] at this
      omega
    obtain ⟨r, hr, hlt⟩ := ih (l.drop n) hd
    have hs : bitsOf (valueOf n (l.take n)) ++ l.drop n = l := by rw [hv, List.take_append_drop]
    refine ⟨r, ?_, hlt⟩
    calc streamOf (cut n l) ++ r
        = streamOf (cut n (bitsOf (valueOf n (l.take n)) ++ l.drop n)) ++ r := by rw [hs]
      _ = bitsOf (valueOf n (l.take n)) ++ (streamOf (cut n (l.drop n)) ++ r) := by
          rw [cut_bitsOf_append hn, streamOf_cons, List.append_assoc]
      _ = l := by rw [hr, hs]

end Sys2Proof.Machine
end

