-- ==== Sys2Proof/Laws/Decode.lean ====
section
/-! SUPPORT. The decoder's checks and the well-formedness of the fields are the same condition, and the numbers the host hands
over are the words they are. -/

namespace Sys2Proof

/-- The decoder finds nothing wrong exactly with well-formed fields. -/
theorem defect_eq_none_iff (f : Fields) : f.defect = none ↔ f.wellFormed = true := by
  obtain ⟨rsv, side, fn, data⟩ := f
  cases rsv <;> cases side <;> cases fn <;>
    simp [Fields.defect, Fields.wellFormed, Fields.operandless, Fields.takesSymbol]

/-- A word decodes to an operation exactly when its fields are well formed. -/
theorem decode_legal_iff (w : CommandWord) : (∃ i, decode w = .legal i) ↔ (fieldsOf w).wellFormed = true := by
  rw [← defect_eq_none_iff, decode]
  cases (fieldsOf w).defect <;> simp

/-- A 12-bit word given as a number is that word. -/
theorem tableWord_toNat {nbits : Nat} (h : 12 ≤ nbits) (w : CommandWord) : tableWord nbits w.toNat = w := by
  have hw : w.toNat < 4096 := w.isLt
  have hp : 2 ^ 12 ≤ 2 ^ nbits := Nat.pow_le_pow_right (by omega) h
  simp [tableWord, Nat.mod_eq_of_lt (show w.toNat < 2 ^ nbits by omega), hw]

end Sys2Proof
end

