-- ==== Sys2Proof/Laws/State.lean ====
section
/-! SUPPORT. One lemma per field per update of State, each true by rfl, so that no later proof unfolds a record update. -/

namespace Sys2Proof.Machine

variable (s : State)

/-! ### emit -/

@[simp] theorem State.emit_ecarry (k : TokenKind) (d : Byte) : (s.emit k d).ecarry = s.ecarry := rfl
@[simp] theorem State.emit_ecnt (k : TokenKind) (d : Byte) : (s.emit k d).ecnt = s.ecnt := rfl
@[simp] theorem State.emit_dacc (k : TokenKind) (d : Byte) : (s.emit k d).dacc = s.dacc := rfl
@[simp] theorem State.emit_dcnt (k : TokenKind) (d : Byte) : (s.emit k d).dcnt = s.dcnt := rfl
@[simp] theorem State.emit_derr (k : TokenKind) (d : Byte) : (s.emit k d).derr = s.derr := rfl
@[simp] theorem State.emit_derrb (k : TokenKind) (d : Byte) : (s.emit k d).derrb = s.derrb := rfl
@[simp] theorem State.emit_inputs (k : TokenKind) (d : Byte) : (s.emit k d).inputs = s.inputs := rfl
@[simp] theorem State.emit_tokens (k : TokenKind) (d : Byte) : (s.emit k d).tokens = s.tokens ++ [⟨k, d⟩] := rfl

/-! ### emitSymbols -/

@[simp] theorem State.emitSymbols_ecarry (vs : List Symbol) : (s.emitSymbols vs).ecarry = s.ecarry := rfl
@[simp] theorem State.emitSymbols_ecnt (vs : List Symbol) : (s.emitSymbols vs).ecnt = s.ecnt := rfl
@[simp] theorem State.emitSymbols_dacc (vs : List Symbol) : (s.emitSymbols vs).dacc = s.dacc := rfl
@[simp] theorem State.emitSymbols_dcnt (vs : List Symbol) : (s.emitSymbols vs).dcnt = s.dcnt := rfl
@[simp] theorem State.emitSymbols_derr (vs : List Symbol) : (s.emitSymbols vs).derr = s.derr := rfl
@[simp] theorem State.emitSymbols_derrb (vs : List Symbol) : (s.emitSymbols vs).derrb = s.derrb := rfl
@[simp] theorem State.emitSymbols_inputs (vs : List Symbol) : (s.emitSymbols vs).inputs = s.inputs := rfl
@[simp] theorem State.emitSymbols_tokens (vs : List Symbol) :
    (s.emitSymbols vs).tokens = s.tokens ++ vs.map fun v => ⟨.char, alpha v⟩ := rfl

/-! ### emitBytes -/

@[simp] theorem State.emitBytes_ecarry (bs : List Byte) : (s.emitBytes bs).ecarry = s.ecarry := rfl
@[simp] theorem State.emitBytes_ecnt (bs : List Byte) : (s.emitBytes bs).ecnt = s.ecnt := rfl
@[simp] theorem State.emitBytes_dacc (bs : List Byte) : (s.emitBytes bs).dacc = s.dacc := rfl
@[simp] theorem State.emitBytes_dcnt (bs : List Byte) : (s.emitBytes bs).dcnt = s.dcnt := rfl
@[simp] theorem State.emitBytes_derr (bs : List Byte) : (s.emitBytes bs).derr = s.derr := rfl
@[simp] theorem State.emitBytes_derrb (bs : List Byte) : (s.emitBytes bs).derrb = s.derrb := rfl
@[simp] theorem State.emitBytes_inputs (bs : List Byte) : (s.emitBytes bs).inputs = s.inputs := rfl
@[simp] theorem State.emitBytes_tokens (bs : List Byte) :
    (s.emitBytes bs).tokens = s.tokens ++ bs.map fun b => ⟨.byte, b⟩ := rfl

/-! ### setCarry -/

@[simp] theorem State.setCarry_ecarry (x : Byte) (n : Nat) : (s.setCarry x n).ecarry = x := rfl
@[simp] theorem State.setCarry_ecnt (x : Byte) (n : Nat) : (s.setCarry x n).ecnt = BitVec.ofNat 3 n := rfl
@[simp] theorem State.setCarry_dacc (x : Byte) (n : Nat) : (s.setCarry x n).dacc = s.dacc := rfl
@[simp] theorem State.setCarry_dcnt (x : Byte) (n : Nat) : (s.setCarry x n).dcnt = s.dcnt := rfl
@[simp] theorem State.setCarry_derr (x : Byte) (n : Nat) : (s.setCarry x n).derr = s.derr := rfl
@[simp] theorem State.setCarry_derrb (x : Byte) (n : Nat) : (s.setCarry x n).derrb = s.derrb := rfl
@[simp] theorem State.setCarry_inputs (x : Byte) (n : Nat) : (s.setCarry x n).inputs = s.inputs := rfl
@[simp] theorem State.setCarry_tokens (x : Byte) (n : Nat) : (s.setCarry x n).tokens = s.tokens := rfl

/-! ### clearCarry -/

@[simp] theorem State.clearCarry_ecarry : (s.clearCarry).ecarry = 0x00#8 := rfl
@[simp] theorem State.clearCarry_ecnt : (s.clearCarry).ecnt = 0#3 := rfl
@[simp] theorem State.clearCarry_dacc : (s.clearCarry).dacc = s.dacc := rfl
@[simp] theorem State.clearCarry_dcnt : (s.clearCarry).dcnt = s.dcnt := rfl
@[simp] theorem State.clearCarry_derr : (s.clearCarry).derr = s.derr := rfl
@[simp] theorem State.clearCarry_derrb : (s.clearCarry).derrb = s.derrb := rfl
@[simp] theorem State.clearCarry_inputs : (s.clearCarry).inputs = s.inputs := rfl
@[simp] theorem State.clearCarry_tokens : (s.clearCarry).tokens = s.tokens := rfl

/-! ### setBuffer -/

@[simp] theorem State.setBuffer_ecarry (x : BitVec 7) (n : Nat) : (s.setBuffer x n).ecarry = s.ecarry := rfl
@[simp] theorem State.setBuffer_ecnt (x : BitVec 7) (n : Nat) : (s.setBuffer x n).ecnt = s.ecnt := rfl
@[simp] theorem State.setBuffer_dacc (x : BitVec 7) (n : Nat) : (s.setBuffer x n).dacc = x := rfl
@[simp] theorem State.setBuffer_dcnt (x : BitVec 7) (n : Nat) : (s.setBuffer x n).dcnt = BitVec.ofNat 3 n := rfl
@[simp] theorem State.setBuffer_derr (x : BitVec 7) (n : Nat) : (s.setBuffer x n).derr = s.derr := rfl
@[simp] theorem State.setBuffer_derrb (x : BitVec 7) (n : Nat) : (s.setBuffer x n).derrb = s.derrb := rfl
@[simp] theorem State.setBuffer_inputs (x : BitVec 7) (n : Nat) : (s.setBuffer x n).inputs = s.inputs := rfl
@[simp] theorem State.setBuffer_tokens (x : BitVec 7) (n : Nat) : (s.setBuffer x n).tokens = s.tokens := rfl

/-! ### clearBuffer -/

@[simp] theorem State.clearBuffer_ecarry : (s.clearBuffer).ecarry = s.ecarry := rfl
@[simp] theorem State.clearBuffer_ecnt : (s.clearBuffer).ecnt = s.ecnt := rfl
@[simp] theorem State.clearBuffer_dacc : (s.clearBuffer).dacc = 0x00#7 := rfl
@[simp] theorem State.clearBuffer_dcnt : (s.clearBuffer).dcnt = 0#3 := rfl
@[simp] theorem State.clearBuffer_derr : (s.clearBuffer).derr = s.derr := rfl
@[simp] theorem State.clearBuffer_derrb : (s.clearBuffer).derrb = s.derrb := rfl
@[simp] theorem State.clearBuffer_inputs : (s.clearBuffer).inputs = s.inputs := rfl
@[simp] theorem State.clearBuffer_tokens : (s.clearBuffer).tokens = s.tokens := rfl

/-! ### clearError -/

@[simp] theorem State.clearError_ecarry : (s.clearError).ecarry = s.ecarry := rfl
@[simp] theorem State.clearError_ecnt : (s.clearError).ecnt = s.ecnt := rfl
@[simp] theorem State.clearError_dacc : (s.clearError).dacc = s.dacc := rfl
@[simp] theorem State.clearError_dcnt : (s.clearError).dcnt = s.dcnt := rfl
@[simp] theorem State.clearError_derr : (s.clearError).derr = false := rfl
@[simp] theorem State.clearError_derrb : (s.clearError).derrb = 0x00#8 := rfl
@[simp] theorem State.clearError_inputs : (s.clearError).inputs = s.inputs := rfl
@[simp] theorem State.clearError_tokens : (s.clearError).tokens = s.tokens := rfl

/-! ### raiseInvalidSymbol -/

@[simp] theorem State.raiseInvalidSymbol_ecarry (c : Byte) : (s.raiseInvalidSymbol c).ecarry = s.ecarry := rfl
@[simp] theorem State.raiseInvalidSymbol_ecnt (c : Byte) : (s.raiseInvalidSymbol c).ecnt = s.ecnt := rfl
@[simp] theorem State.raiseInvalidSymbol_dacc (c : Byte) : (s.raiseInvalidSymbol c).dacc = s.dacc := rfl
@[simp] theorem State.raiseInvalidSymbol_dcnt (c : Byte) : (s.raiseInvalidSymbol c).dcnt = s.dcnt := rfl
@[simp] theorem State.raiseInvalidSymbol_derr (c : Byte) : (s.raiseInvalidSymbol c).derr = true := rfl
@[simp] theorem State.raiseInvalidSymbol_derrb (c : Byte) : (s.raiseInvalidSymbol c).derrb = c := rfl
@[simp] theorem State.raiseInvalidSymbol_inputs (c : Byte) : (s.raiseInvalidSymbol c).inputs = s.inputs := rfl
@[simp] theorem State.raiseInvalidSymbol_tokens (c : Byte) : (s.raiseInvalidSymbol c).tokens = s.tokens ++ [⟨.err, c⟩] := rfl

/-! ### acceptSymbol -/

@[simp] theorem State.acceptSymbol_ecarry (v : Symbol) : (s.acceptSymbol v).ecarry = s.ecarry := rfl
@[simp] theorem State.acceptSymbol_ecnt (v : Symbol) : (s.acceptSymbol v).ecnt = s.ecnt := rfl
@[simp] theorem State.acceptSymbol_dacc (v : Symbol) :
    (s.acceptSymbol v).dacc = (unpackSymbol s.dacc s.dcnt.toNat v).2.1 := rfl
@[simp] theorem State.acceptSymbol_dcnt (v : Symbol) :
    (s.acceptSymbol v).dcnt = BitVec.ofNat 3 (unpackSymbol s.dacc s.dcnt.toNat v).2.2 := rfl
@[simp] theorem State.acceptSymbol_derr (v : Symbol) : (s.acceptSymbol v).derr = s.derr := rfl
@[simp] theorem State.acceptSymbol_derrb (v : Symbol) : (s.acceptSymbol v).derrb = s.derrb := rfl
@[simp] theorem State.acceptSymbol_inputs (v : Symbol) : (s.acceptSymbol v).inputs = s.inputs := rfl
@[simp] theorem State.acceptSymbol_tokens (v : Symbol) :
    (s.acceptSymbol v).tokens = s.tokens ++ (unpackSymbol s.dacc s.dcnt.toNat v).1.map fun b => ⟨.byte, b⟩ := rfl

/-! ### resetRegisters -/

@[simp] theorem State.resetRegisters_ecarry : (s.resetRegisters).ecarry = 0x00#8 := rfl
@[simp] theorem State.resetRegisters_ecnt : (s.resetRegisters).ecnt = 0#3 := rfl
@[simp] theorem State.resetRegisters_dacc : (s.resetRegisters).dacc = 0x00#7 := rfl
@[simp] theorem State.resetRegisters_dcnt : (s.resetRegisters).dcnt = 0#3 := rfl
@[simp] theorem State.resetRegisters_derr : (s.resetRegisters).derr = false := rfl
@[simp] theorem State.resetRegisters_derrb : (s.resetRegisters).derrb = 0x00#8 := rfl
@[simp] theorem State.resetRegisters_inputs : (s.resetRegisters).inputs = s.inputs := rfl
@[simp] theorem State.resetRegisters_tokens : (s.resetRegisters).tokens = s.tokens := rfl

/-! ### issue -/

@[simp] theorem State.issue_ecarry (es : List Event) : (s.issue es).ecarry = s.ecarry := rfl
@[simp] theorem State.issue_ecnt (es : List Event) : (s.issue es).ecnt = s.ecnt := rfl
@[simp] theorem State.issue_dacc (es : List Event) : (s.issue es).dacc = s.dacc := rfl
@[simp] theorem State.issue_dcnt (es : List Event) : (s.issue es).dcnt = s.dcnt := rfl
@[simp] theorem State.issue_derr (es : List Event) : (s.issue es).derr = s.derr := rfl
@[simp] theorem State.issue_derrb (es : List Event) : (s.issue es).derrb = s.derrb := rfl
@[simp] theorem State.issue_inputs (es : List Event) : (s.issue es).inputs = s.inputs ++ es := rfl
@[simp] theorem State.issue_tokens (es : List Event) : (s.issue es).tokens = s.tokens := rfl

/-! ### issueFirst -/

@[simp] theorem State.issueFirst_ecarry (w : CommandWord) : (s.issueFirst w).ecarry = s.ecarry := rfl
@[simp] theorem State.issueFirst_ecnt (w : CommandWord) : (s.issueFirst w).ecnt = s.ecnt := rfl
@[simp] theorem State.issueFirst_dacc (w : CommandWord) : (s.issueFirst w).dacc = s.dacc := rfl
@[simp] theorem State.issueFirst_dcnt (w : CommandWord) : (s.issueFirst w).dcnt = s.dcnt := rfl
@[simp] theorem State.issueFirst_derr (w : CommandWord) : (s.issueFirst w).derr = s.derr := rfl
@[simp] theorem State.issueFirst_derrb (w : CommandWord) : (s.issueFirst w).derrb = s.derrb := rfl
@[simp] theorem State.issueFirst_inputs (w : CommandWord) : (s.issueFirst w).inputs = .command w :: s.inputs := rfl
@[simp] theorem State.issueFirst_tokens (w : CommandWord) : (s.issueFirst w).tokens = s.tokens := rfl

end Sys2Proof.Machine
end

