-- ==== Sys2Proof/Laws/Ops.lean ====
section
/-! SUPPORT. One lemma per shared operation that says what it can do: the two data paths on bit strings, the two guards, and
taking an event. -/

namespace Sys2Proof.Machine

/-! ### The guards -/

theorem State.onEncodeOk_of_ok {s : State} (h : s.EncodeOk) (t : State) : s.onEncodeOk t = .next t := if_pos h

theorem State.onDecodeOk_of_ok {s : State} (h : s.DecodeOk) (t : State) : s.onDecodeOk t = .next t := if_pos h

theorem State.onEncodeOk_next_iff {s t u : State} : s.onEncodeOk t = .next u ↔ s.EncodeOk ∧ u = t := by
  unfold State.onEncodeOk
  constructor
  · split
    · rintro ⟨⟩
      exact ⟨‹_›, rfl⟩
    · rintro ⟨⟩
  · rintro ⟨h, rfl⟩
    exact if_pos h

theorem State.onDecodeOk_next_iff {s t u : State} : s.onDecodeOk t = .next u ↔ s.DecodeOk ∧ u = t := by
  unfold State.onDecodeOk
  constructor
  · split
    · rintro ⟨⟩
      exact ⟨‹_›, rfl⟩
    · rintro ⟨⟩
  · rintro ⟨h, rfl⟩
    exact if_pos h

/-! ### The window and its slices -/

theorem bitsOf_topSymbol (w : Window) : bitsOf (topSymbol w) = (bitsOf w).take 5 := by
  simp [bitsOf, topSymbol, List.ofFn_succ, BitVec.getMsbD]

theorem bitsOf_topByte (w : Window) : bitsOf (topByte w) = (bitsOf w).take 8 := by
  simp [bitsOf, topByte, List.ofFn_succ, BitVec.getMsbD]

theorem bitsOf_topBuffer (w : Window) : bitsOf (topBuffer w) = (bitsOf w).take 7 := by
  simp [bitsOf, topBuffer, List.ofFn_succ, BitVec.getMsbD]

theorem bitsOf_finalSymbol (x : Byte) : bitsOf (finalSymbol x) = (bitsOf x).take 5 := by
  simp [bitsOf, finalSymbol, List.ofFn_succ, BitVec.getMsbD]

/-- The window of `ENC.BYTE`: the carry bits, the byte's, zeros (R112: "the c+8 combined bits are W[11 : 4-c], carry
first"). -/
theorem bitsOf_encWindow {carry : Byte} {c : Nat} (hc : c ≤ 4) (h : carry <<< c = 0x00#8) (b : Byte) :
    bitsOf (encWindow carry c b) = (bitsOf carry).take c ++ bitsOf b ++ List.replicate (4 - c) false := by
  rw [shiftLeft_eq_zero_iff] at h
  have hk : bitsOf carry = (bitsOf carry).take c ++ List.replicate (8 - c) false := by
    rw [← h, List.take_append_drop]
  generalize hK : (bitsOf carry).take c = K at hk
  have hl : K.length = c := by rw [← hK]; simp; omega
  have := zipWith_or_append (a := K) (b := bitsOf b ++ List.replicate (4 - c) false)
  rw [List.append_assoc, ← this, encWindow, bitsOf_or, bitsOf_shiftLeft, bitsOf_shiftLeft, bitsOf_setWidth (by omega),
    bitsOf_setWidth (by omega), hk]
  interval_cases c <;> simp [hl]
  rw [List.length_eq_zero_iff.mp hl, List.nil_append]

/-- The window of `DEC.CHAR`: the buffered bits, the symbol's, zeros (R132: "the n+5 held bits are W[11 : 7-n], oldest
first"). -/
theorem bitsOf_decWindow {acc : BitVec 7} {n : Nat} (hn : n ≤ 7) (h : acc <<< n = 0x00#7) (v : Symbol) :
    bitsOf (decWindow acc n v) = (bitsOf acc).take n ++ bitsOf v ++ List.replicate (7 - n) false := by
  rw [shiftLeft_eq_zero_iff] at h
  have hk : bitsOf acc = (bitsOf acc).take n ++ List.replicate (7 - n) false := by
    rw [← h, List.take_append_drop]
  generalize hK : (bitsOf acc).take n = K at hk
  have hl : K.length = n := by rw [← hK]; simp; omega
  have := zipWith_or_append (a := K) (b := bitsOf v ++ List.replicate (7 - n) false)
  rw [List.append_assoc, ← this, decWindow, bitsOf_or, bitsOf_shiftLeft, bitsOf_shiftLeft, bitsOf_setWidth (by omega),
    bitsOf_setWidth (by omega), hk]
  interval_cases n <;> simp [hl]
  rw [List.length_eq_zero_iff.mp hl, List.nil_append]

/-! ### The data paths -/

/-- `ENC.BYTE` on bit strings: carry, then byte, are the groups, then the new carry; the new carry is shorter than a group
and zero-filled (R112, R113). -/
theorem packByte_bits {carry : Byte} {c : Nat} (hc : c ≤ 4) (h : carry <<< c = 0x00#8) (b : Byte) :
    (bitsOf carry).take c ++ bitsOf b =
        streamOf (packByte carry c b).1 ++ (bitsOf (packByte carry c b).2.1).take (packByte carry c b).2.2 ∧
      (packByte carry c b).2.2 = (c + 3) % 5 ∧
      (packByte carry c b).2.1 <<< (packByte carry c b).2.2 = 0x00#8 := by
  have hw := bitsOf_encWindow hc h b
  generalize hK : (bitsOf carry).take c ++ bitsOf b = K at hw
  have hl : K.length = c + 8 := by rw [← hK]; simp; omega
  have h₁ : (K.drop 5).take 8 = K.drop 5 := List.take_of_length_le (by simp; omega)
  have h₂ : (K.drop 10).take 8 = K.drop 10 := List.take_of_length_le (by simp; omega)
  have h₃ : (K.drop 5).take 5 ++ K.drop 10 = K.drop 5 := by simpa using List.take_append_drop 5 (K.drop 5)
  rw [shiftLeft_eq_zero_iff]
  interval_cases c <;>
    simp [packByte, streamOf, bitsOf_topSymbol, bitsOf_topByte, dropSymbol, bitsOf_shiftLeft, hw, hl, List.take_append,
      List.drop_append, h₁, h₂, h₃]

/-- The carry that `ENC.BYTE` keeps is the low-order end of its byte, zero-filled (R114). -/
theorem bitsOf_packByte_carry {carry : Byte} {c : Nat} (hc : c ≤ 4) (h : carry <<< c = 0x00#8) (b : Byte) :
    bitsOf (packByte carry c b).2.1 =
      (bitsOf b).drop (8 - (c + 3) % 5) ++ List.replicate (8 - (c + 3) % 5) false := by
  obtain ⟨hb, hn, hz⟩ := packByte_bits hc h b
  have hl : ((bitsOf (packByte carry c b).2.1).take (packByte carry c b).2.2).length = (c + 3) % 5 := by
    simp [hn]
    omega
  have ht := eq_drop_of_append_eq hb (by rw [hl]; simp; omega)
  rw [hl] at ht
  rw [shiftLeft_eq_zero_iff] at hz
  rw [← List.take_append_drop (packByte carry c b).2.2 (bitsOf (packByte carry c b).2.1), ht, hz, hn]
  simp

/-- `DEC.CHAR` on bit strings: buffer, then symbol, are the byte, then the new buffer; the new buffer is shorter than a byte
and zero-filled (R132, R134). -/
theorem unpackSymbol_bits {acc : BitVec 7} {n : Nat} (hn : n ≤ 7) (h : acc <<< n = 0x00#7) (v : Symbol) :
    (bitsOf acc).take n ++ bitsOf v =
        streamOf (unpackSymbol acc n v).1 ++ (bitsOf (unpackSymbol acc n v).2.1).take (unpackSymbol acc n v).2.2 ∧
      (unpackSymbol acc n v).2.2 = (n + 5) % 8 ∧
      (unpackSymbol acc n v).2.1 <<< (unpackSymbol acc n v).2.2 = 0x00#7 := by
  have hw := bitsOf_decWindow hn h v
  generalize hK : (bitsOf acc).take n ++ bitsOf v = K at hw
  have hl : K.length = n + 5 := by rw [← hK]; simp; omega
  have h₁ : (K.drop 8).take 7 = K.drop 8 := List.take_of_length_le (by simp; omega)
  rw [shiftLeft_eq_zero_iff]
  interval_cases n <;>
    simp [unpackSymbol, streamOf, bitsOf_topByte, bitsOf_topBuffer, dropByte, bitsOf_shiftLeft, hw, hl, List.take_append,
      List.drop_append, h₁]

/-! ### Taking an event -/

theorem fetch_idle {s : State} (h : s.inputs = []) : fetch s = .idle := by simp [fetch, h]

theorem fetch_reset {s : State} {rest : List Event} (h : s.inputs = .reset :: rest) :
    fetch s = .reset { s with inputs := rest } := by simp [fetch, h]

theorem fetch_command {s : State} {w : CommandWord} {rest : List Event} (h : s.inputs = .command w :: rest) :
    fetch s =
      match decode w with
      | .legal i => .perform i { s with inputs := rest }
      | .reserved why => .reserved w why := by
  cases s
  cases h
  rfl

end Sys2Proof.Machine
end

