-- ==== Sys2Proof/Laws/Tables.lean ====
section
/-! SUPPORT. The two tables: their shapes, and what a canonical character decodes to. -/

namespace Sys2Proof.Machine

theorem alphaRom_length : alphaRom.length = 32 := rfl

theorem decTabRows_shape : decTabRows.length = 16 ∧ ∀ r ∈ decTabRows, r.length = 16 := by decide

/-- A canonical character is a valid one. -/
@[simp] theorem invalidSymbol_alpha (v : Symbol) : invalidSymbol (alpha v) = false := by
  revert v
  decide

/-- A canonical character has the value it stands for. -/
@[simp] theorem entryValue_decTab_alpha (v : Symbol) : entryValue (decTab (alpha v)) = v := by
  revert v
  decide

/-- The symbol values behind a sequence of canonical characters (spec/30_encoding.md R75). -/
@[simp] theorem map_entryValue_alpha (vs : List Symbol) : (vs.map alpha).map (fun c => entryValue (decTab c)) = vs := by
  rw [List.map_map]
  exact (List.map_congr_left fun v _ => entryValue_decTab_alpha v).trans (List.map_id _)

set_option maxRecDepth 4000 in
/-- The one invalid entry is `0x00`. -/
theorem invalidSymbol_iff (c : Byte) : invalidSymbol c = true ↔ decTab c = 0x00#6 := by
  revert c
  decide

/-- A valid entry is `0x20 + v`. -/
theorem valid_entry_eq (e : Entry) (h : entryValid e = true) : e = 0x20#6 + (entryValue e).setWidth 6 := by
  revert e
  decide

end Sys2Proof.Machine
end

