-- ==== Sys2Proof/Laws/Exec.lean ====
section
/-! SUPPORT. What each meaning can do, said once: when it answers a next state, and which. Later proofs cite these lemmas and
do not unfold a meaning. -/

namespace Sys2Proof.Machine

variable {s t : State}

/-! ### The outcome of each operation -/

theorem exec_encStart (s : State) : exec .encStart s = .next s.clearCarry := rfl

theorem exec_encByte_next_iff {b : Byte} :
    exec (.encByte b) s = .next t ↔
      s.EncodeOk ∧ t = (s.setCarry (packByte s.ecarry s.ecnt.toNat b).2.1 (packByte s.ecarry s.ecnt.toNat b).2.2).emitSymbols
        (packByte s.ecarry s.ecnt.toNat b).1 :=
  State.onEncodeOk_next_iff

theorem exec_encEnd_next_iff :
    exec .encEnd s = .next t ↔
      s.EncodeOk ∧ t = s.clearCarry.emitSymbols s.lastGroup :=
  State.onEncodeOk_next_iff

theorem exec_lutS2c (v : Symbol) (s : State) : exec (.lutS2c v) s = .next (s.emit .lut (alpha v)) := rfl

theorem exec_decStart (s : State) : exec .decStart s = .next s.clearBuffer.clearError := rfl

theorem exec_decChar_next_iff {c : Byte} :
    exec (.decChar c) s = .next t ↔
      s.DecodeOk ∧ t =
        if s.derr then s
        else if invalidSymbol c then s.raiseInvalidSymbol c
        else s.acceptSymbol (entryValue (decTab c)) :=
  State.onDecodeOk_next_iff

theorem exec_decEnd_next_iff :
    exec .decEnd s = .next t ↔ s.DecodeOk ∧ t = if s.derr then s else s.clearBuffer :=
  State.onDecodeOk_next_iff

theorem exec_lutC2s (b : Byte) (s : State) : exec (.lutC2s b) s = .next (s.emit .lut ((decTab b).setWidth 8)) := rfl

/-- Every way in which an operation answers a next state. -/
theorem exec_next_cases {i : Instr} (h : exec i s = .next t) :
    (i = .encStart ∧ t = s.clearCarry) ∨
    (∃ b, i = .encByte b ∧ s.EncodeOk ∧
      t = (s.setCarry (packByte s.ecarry s.ecnt.toNat b).2.1 (packByte s.ecarry s.ecnt.toNat b).2.2).emitSymbols
        (packByte s.ecarry s.ecnt.toNat b).1) ∨
    (i = .encEnd ∧ s.EncodeOk ∧ t = s.clearCarry.emitSymbols s.lastGroup) ∨
    (∃ v, i = .lutS2c v ∧ t = s.emit .lut (alpha v)) ∨
    (i = .decStart ∧ t = s.clearBuffer.clearError) ∨
    (∃ c, i = .decChar c ∧ s.DecodeOk ∧ s.derr = true ∧ t = s) ∨
    (∃ c, i = .decChar c ∧ s.DecodeOk ∧ s.derr = false ∧ invalidSymbol c = true ∧ t = s.raiseInvalidSymbol c) ∨
    (∃ c, i = .decChar c ∧ s.DecodeOk ∧ s.derr = false ∧ invalidSymbol c = false ∧
      t = s.acceptSymbol (entryValue (decTab c))) ∨
    (i = .decEnd ∧ s.DecodeOk ∧ s.derr = true ∧ t = s) ∨
    (i = .decEnd ∧ s.DecodeOk ∧ s.derr = false ∧ t = s.clearBuffer) ∨
    (∃ b, i = .lutC2s b ∧ t = s.emit .lut ((decTab b).setWidth 8)) := by
  cases i with
  | encStart => cases h; simp
  | encByte b => simpa using exec_encByte_next_iff.mp h
  | encEnd => simpa using exec_encEnd_next_iff.mp h
  | lutS2c v => cases h; simp
  | decStart => cases h; simp
  | decChar c =>
    obtain ⟨hd, ht⟩ := exec_decChar_next_iff.mp h
    cases he : s.derr <;> cases hv : invalidSymbol c <;> simp_all <;> exact hd
  | decEnd =>
    obtain ⟨hd, ht⟩ := exec_decEnd_next_iff.mp h
    cases he : s.derr <;> simp_all <;> exact hd
  | lutC2s b => cases h; simp

/-! ### The two data operations on bit strings -/

theorem length_carryBits (h : s.EncodeOk) : s.carryBits.length = s.ecnt.toNat := by
  have := h.1
  simp [State.carryBits]
  omega

theorem length_bufferBits (s : State) : s.bufferBits.length = s.dcnt.toNat := by
  have := s.dcnt.isLt
  simp [State.bufferBits]
  omega

theorem carryBits_clear (h : s.ecnt = 0#3) : s.carryBits = [] := by simp [State.carryBits, h]

theorem bufferBits_clear (h : s.dcnt = 0#3) : s.bufferBits = [] := by simp [State.bufferBits, h]

/-- `ENC.BYTE` (R112, R113): it completes where its precondition holds, touches only the encode registers and the tokens, and
conserves the bits. -/
theorem exec_encByte_spec (h : s.EncodeOk) (b : Byte) :
    ∃ (vs : List Symbol) (t : State), exec (.encByte b) s = .next t ∧
      t = { s with ecarry := t.ecarry, ecnt := t.ecnt, tokens := s.tokens ++ vs.map fun v => ⟨.char, alpha v⟩ } ∧
      s.carryBits ++ bitsOf b = streamOf vs ++ t.carryBits ∧ t.EncodeOk ∧ t.ecnt.toNat = (s.ecnt.toNat + 3) % 5 := by
  obtain ⟨hb, hn, hz⟩ := packByte_bits h.1 h.2 b
  refine ⟨_, _, exec_encByte_next_iff.mpr ⟨h, rfl⟩, rfl, ?_, ?_, ?_⟩
  · simpa [State.carryBits, hn, Nat.mod_eq_of_lt (show (s.ecnt.toNat + 3) % 5 < 8 by omega)] using hb
  · have h5 : (s.ecnt.toNat + 3) % 5 % 8 = (s.ecnt.toNat + 3) % 5 := by omega
    constructor
    · simp [hn]; omega
    · simpa [hn, h5] using hz
  · simp [hn]; omega

/-- `ENC.END` (R116): it completes where its precondition holds, and the symbol it returns, if any, is the carry padded with
zeros. -/
theorem exec_encEnd_spec (h : s.EncodeOk) :
    ∃ (vs : List Symbol), exec .encEnd s = .next
        { s with ecarry := 0x00#8, ecnt := 0#3, tokens := s.tokens ++ vs.map fun v => ⟨.char, alpha v⟩ } ∧
      streamOf vs = s.carryBits ++ List.replicate ((5 - s.ecnt.toNat) % 5) false := by
  refine ⟨_, exec_encEnd_next_iff.mpr ⟨h, rfl⟩, ?_⟩
  obtain ⟨hc, hz⟩ := h
  rw [shiftLeft_eq_zero_iff] at hz
  have hk : bitsOf s.ecarry = s.carryBits ++ List.replicate (8 - s.ecnt.toNat) false := by
    rw [← hz, State.carryBits, List.take_append_drop]
  rw [State.lastGroup]
  split
  · rename_i hp
    have hl : s.carryBits.length = s.ecnt.toNat := by simp [State.carryBits]; omega
    have h5 : (5 - s.ecnt.toNat) % 5 = 5 - s.ecnt.toNat := Nat.mod_eq_of_lt (by omega)
    simp only [streamOf_cons, streamOf_nil, List.append_nil, bitsOf_finalSymbol, hk, h5]
    rw [List.take_append, List.take_of_length_le (by omega), List.take_replicate]
    congr 2
    omega
  · have h0 : s.ecnt.toNat = 0 := by omega
    simp [State.carryBits, h0]

/-- `DEC.CHAR` with a valid character and `DERR = 0` (R132, R134): it completes, touches only the accumulator and the tokens,
and conserves the bits. -/
theorem exec_decChar_spec (h : s.DecodeOk) (he : s.derr = false) {c : Byte} (hv : invalidSymbol c = false) :
    ∃ (bs : List Byte) (t : State), exec (.decChar c) s = .next t ∧
      t = { s with dacc := t.dacc, dcnt := t.dcnt, tokens := s.tokens ++ bs.map fun b => ⟨.byte, b⟩ } ∧
      s.bufferBits ++ bitsOf (entryValue (decTab c)) = streamOf bs ++ t.bufferBits ∧ t.DecodeOk ∧
      t.dcnt.toNat = (s.dcnt.toNat + 5) % 8 := by
  obtain ⟨hb, hn, hz⟩ := unpackSymbol_bits (Nat.le_of_lt_succ s.dcnt.isLt) h.1 (entryValue (decTab c))
  refine ⟨(unpackSymbol s.dacc s.dcnt.toNat (entryValue (decTab c))).1, s.acceptSymbol (entryValue (decTab c)),
    exec_decChar_next_iff.mpr ⟨h, by simp [he, hv]⟩, rfl, ?_, ?_, ?_⟩
  · simpa [State.bufferBits, hn] using hb
  · constructor
    · simpa [hn] using hz
    · simpa using h.2
  · simp [hn]

/-- `DEC.CHAR` with an invalid character and `DERR = 0` (R132, R182). -/
theorem exec_decChar_invalid (h : s.DecodeOk) (he : s.derr = false) {c : Byte} (hv : invalidSymbol c = true) :
    exec (.decChar c) s = .next (s.raiseInvalidSymbol c) :=
  exec_decChar_next_iff.mpr ⟨h, by simp [he, hv]⟩

/-- `DEC.CHAR` with `DERR = 1` (R133). -/
theorem exec_decChar_failed (h : s.DecodeOk) (he : s.derr = true) (c : Byte) : exec (.decChar c) s = .next s :=
  exec_decChar_next_iff.mpr ⟨h, by simp [he]⟩

end Sys2Proof.Machine
end

