-- ==== Sys2Proof/Laws/Message.lean ====
section
/-! SUPPORT. Command sequences: composition, the tokens they add, and the two loops of a message. -/

namespace Sys2Proof.Machine

variable {s t u : State}

/-! ### Composition -/

@[simp] theorem perform_nil (s : State) : perform [] s = .next s := rfl

theorem perform_cons_of_next {i : Instr} {is : List Instr} (h : exec i s = .next t) :
    perform (i :: is) s = perform is t := by simp only [perform, h]

theorem perform_cons_next_iff {i : Instr} {is : List Instr} :
    perform (i :: is) s = .next u ↔ ∃ t, exec i s = .next t ∧ perform is t = .next u := by
  cases h : exec i s <;> simp [perform, h]

theorem perform_append_of_next {is js : List Instr} (h : perform is s = .next t) :
    perform (is ++ js) s = perform js t := by
  induction is generalizing s with
  | nil =>
    cases h
    rfl
  | cons i is ih =>
    obtain ⟨v, hv, hr⟩ := perform_cons_next_iff.mp h
    rw [List.cons_append, perform_cons_of_next hv, ih hr]

/-! ### Tokens -/

theorem newTokens_of_append {l : List Token} (h : t.tokens = s.tokens ++ l) : newTokens s t = l := by
  simp [newTokens, h]

/-- A next state is reached by appending tokens. -/
theorem exec_tokens {i : Instr} (h : exec i s = .next t) : t.tokens = s.tokens ++ newTokens s t := by
  have : ∃ l, t.tokens = s.tokens ++ l := by
    rcases exec_next_cases h with ⟨-, rfl⟩ | ⟨b, -, -, rfl⟩ | ⟨-, -, rfl⟩ | ⟨v, -, rfl⟩ | ⟨-, rfl⟩ | ⟨c, -, -, -, rfl⟩ |
      ⟨c, -, -, -, -, rfl⟩ | ⟨c, -, -, -, -, rfl⟩ | ⟨-, -, -, rfl⟩ | ⟨-, -, -, rfl⟩ | ⟨b, -, rfl⟩ <;>
      first
        | exact ⟨_, rfl⟩
        | exact ⟨[], by simp⟩
  obtain ⟨l, hl⟩ := this
  rw [newTokens_of_append hl, hl]

theorem perform_tokens {is : List Instr} (h : perform is s = .next t) : t.tokens = s.tokens ++ newTokens s t := by
  induction is generalizing s with
  | nil =>
    cases h
    simp [newTokens]
  | cons i is ih =>
    obtain ⟨v, hv, hr⟩ := perform_cons_next_iff.mp h
    have h₁ := exec_tokens hv
    have h₂ := ih hr
    rw [h₁, List.append_assoc] at h₂
    rw [newTokens_of_append h₂, h₂]

/-- The tokens of a sequence are those of its first command, then those of the rest. -/
theorem newTokens_trans (h₁ : t.tokens = s.tokens ++ newTokens s t) (h₂ : u.tokens = t.tokens ++ newTokens t u) :
    newTokens s u = newTokens s t ++ newTokens t u := by
  rw [h₁, List.append_assoc] at h₂
  exact newTokens_of_append h₂

@[simp] theorem dataOf_nil (k : TokenKind) : dataOf k [] = [] := rfl

@[simp] theorem dataOf_append (k : TokenKind) (a b : List Token) : dataOf k (a ++ b) = dataOf k a ++ dataOf k b := by
  simp [dataOf]

theorem dataOf_map_same {α : Type} (k : TokenKind) (f : α → Byte) (l : List α) :
    dataOf k (l.map fun x => ⟨k, f x⟩) = l.map f := by
  induction l with
  | nil => rfl
  | cons x l ih => simp_all [dataOf]

theorem dataOf_map_other {α : Type} {k k' : TokenKind} (h : k' ≠ k) (f : α → Byte) (l : List α) :
    dataOf k (l.map fun x => ⟨k', f x⟩) = [] := by
  induction l with
  | nil => rfl
  | cons x l ih => simp_all [dataOf]

/-! ### Symbol values -/

/-- The `CHAR` tokens of an operation are those of the symbol values it computes. -/
theorem exec_symbolsMade {i : Instr} (h : exec i s = .next t) :
    (newTokens s t).filter (fun tok => tok.kind == .char) = (symbolsMade i s).map fun v => ⟨.char, alpha v⟩ := by
  rcases exec_next_cases h with ⟨rfl, rfl⟩ | ⟨b, rfl, -, rfl⟩ | ⟨rfl, -, rfl⟩ | ⟨v, rfl, rfl⟩ | ⟨rfl, rfl⟩ |
    ⟨c, rfl, -, -, rfl⟩ | ⟨c, rfl, -, -, -, rfl⟩ | ⟨c, rfl, -, -, -, rfl⟩ | ⟨rfl, -, -, rfl⟩ | ⟨rfl, -, -, rfl⟩ |
    ⟨b, rfl, rfl⟩ <;> simp [newTokens, symbolsMade]

/-- The `CHAR` tokens of a command sequence are those of the symbol values it computes. -/
theorem perform_symbolsThrough {is : List Instr} (h : perform is s = .next t) :
    ∃ vs, symbolsThrough is s = some vs ∧
      (newTokens s t).filter (fun tok => tok.kind == .char) = vs.map fun v => ⟨.char, alpha v⟩ := by
  induction is generalizing s with
  | nil =>
    cases h
    exact ⟨[], rfl, by simp [newTokens]⟩
  | cons i is ih =>
    obtain ⟨u, hu, hr⟩ := perform_cons_next_iff.mp h
    obtain ⟨vs, hv, hk⟩ := ih hr
    refine ⟨symbolsMade i s ++ vs, by simp [symbolsThrough, hu, hv], ?_⟩
    rw [newTokens_trans (exec_tokens hu) (perform_tokens hr), List.filter_append, exec_symbolsMade hu, hk, List.map_append]

/-! ### The loops -/

/-- The `ENC.BYTE` commands of a message: they complete, touch only the encode registers and the tokens, and conserve the
bits. -/
theorem perform_encBytes (h : s.EncodeOk) (bs : List Byte) :
    ∃ (vs : List Symbol) (t : State), perform (bs.map .encByte) s = .next t ∧
      t = { s with ecarry := t.ecarry, ecnt := t.ecnt, tokens := s.tokens ++ vs.map fun v => ⟨.char, alpha v⟩ } ∧
      s.carryBits ++ streamOf bs = streamOf vs ++ t.carryBits ∧ t.EncodeOk := by
  induction bs generalizing s with
  | nil => exact ⟨[], s, rfl, by simp, by simp, h⟩
  | cons b bs ih =>
    obtain ⟨vs, t, ht, hf, hb, hok, -⟩ := exec_encByte_spec h b
    obtain ⟨ws, u, hu, hg, hc, hok'⟩ := ih hok
    refine ⟨vs ++ ws, u, ?_, ?_, ?_, hok'⟩
    · rw [List.map_cons, perform_cons_of_next ht, hu]
    · rw [hg, hf]
      simp
    · rw [streamOf_cons, streamOf_append, List.append_assoc, ← hc, ← List.append_assoc, hb, List.append_assoc]

/-- The `DEC.CHAR` commands of a message of valid characters: they complete, touch only the accumulator and the tokens, and
conserve the bits. -/
theorem perform_decChars (h : s.DecodeOk) (he : s.derr = false) {cs : List Byte}
    (hv : ∀ c ∈ cs, invalidSymbol c = false) :
    ∃ (bs : List Byte) (t : State), perform (cs.map .decChar) s = .next t ∧
      t = { s with dacc := t.dacc, dcnt := t.dcnt, tokens := s.tokens ++ bs.map fun b => ⟨.byte, b⟩ } ∧
      s.bufferBits ++ streamOf (cs.map fun c => entryValue (decTab c)) = streamOf bs ++ t.bufferBits ∧ t.DecodeOk := by
  induction cs generalizing s with
  | nil => exact ⟨[], s, rfl, by simp, by simp, h⟩
  | cons c cs ih =>
    obtain ⟨bs, t, ht, hf, hb, hok, -⟩ := exec_decChar_spec h he (hv c (by simp))
    have he' : t.derr = false := by rw [hf]; exact he
    obtain ⟨ds, u, hu, hg, hc, hok'⟩ := ih hok he' fun d hd => hv d (by simp [hd])
    refine ⟨bs ++ ds, u, ?_, ?_, ?_, hok'⟩
    · rw [List.map_cons, perform_cons_of_next ht, hu]
    · rw [hg, hf]
      simp
    · rw [List.map_cons, streamOf_cons, streamOf_append, List.append_assoc, ← hc, ← List.append_assoc, hb,
        List.append_assoc]

/-- `DEC.CHAR` commands sent after an error do nothing (R133). -/
theorem perform_decChars_failed (h : s.DecodeOk) (he : s.derr = true) (cs : List Byte) :
    perform (cs.map .decChar) s = .next s := by
  induction cs with
  | nil => rfl
  | cons c cs ih => rw [List.map_cons, perform_cons_of_next (exec_decChar_failed h he c), ih]

/-- An encode message up to its `ENC.END`, from any state: its bits are those of the symbols returned, then the carry. -/
theorem perform_encodeBody (s : State) (bs : List Byte) :
    ∃ (vs : List Symbol) (t : State), perform (.encStart :: bs.map .encByte) s = .next t ∧
      t = { s with ecarry := t.ecarry, ecnt := t.ecnt, tokens := s.tokens ++ vs.map fun v => ⟨.char, alpha v⟩ } ∧
      streamOf bs = streamOf vs ++ t.carryBits ∧ t.EncodeOk := by
  have h₀ : s.clearCarry.EncodeOk := by constructor <;> simp
  obtain ⟨vs, t, ht, hf, hb, hok⟩ := perform_encBytes h₀ bs
  refine ⟨vs, t, by rw [perform_cons_of_next (exec_encStart s), ht], by rw [hf]; rfl, ?_, hok⟩
  rw [carryBits_clear (by simp)] at hb
  simpa using hb

/-- A decode message of valid characters up to its `DEC.END`, from any state: its symbols' bits are those of the bytes
returned, then the buffer. -/
theorem perform_decodeBody (s : State) {cs : List Byte} (hv : ∀ c ∈ cs, invalidSymbol c = false) :
    ∃ (bs : List Byte) (t : State), perform (.decStart :: cs.map .decChar) s = .next t ∧
      t = { s with dacc := t.dacc, dcnt := t.dcnt, derr := false, derrb := 0x00#8
                   tokens := s.tokens ++ bs.map fun b => ⟨.byte, b⟩ } ∧
      streamOf (cs.map fun c => entryValue (decTab c)) = streamOf bs ++ t.bufferBits ∧ t.DecodeOk := by
  have h₀ : s.clearBuffer.clearError.DecodeOk := by constructor <;> simp
  obtain ⟨bs, t, ht, hf, hb, hok⟩ := perform_decChars h₀ rfl hv
  refine ⟨bs, t, by rw [perform_cons_of_next (exec_decStart s), ht], by rw [hf]; rfl, ?_, hok⟩
  rw [bufferBits_clear (by simp)] at hb
  simpa using hb

/-- Every sequence of characters is valid, or splits at its first invalid one. -/
theorem valid_or_split (cs : List Byte) :
    (∀ c ∈ cs, invalidSymbol c = false) ∨
      ∃ pre c post, cs = pre ++ c :: post ∧ (∀ d ∈ pre, invalidSymbol d = false) ∧ invalidSymbol c = true := by
  induction cs with
  | nil => exact .inl (by simp)
  | cons c cs ih =>
    cases hc : invalidSymbol c with
    | true => exact .inr ⟨[], c, cs, rfl, by simp, hc⟩
    | false =>
      rcases ih with h | ⟨pre, d, post, rfl, h, hd⟩
      · exact .inl (by simpa [hc] using h)
      · exact .inr ⟨c :: pre, d, post, rfl, by simpa [hc] using h, hd⟩

/-! ### The shape of a result -/

/-- Bytes alone are the shape `Ok` (R153). -/
theorem decodeResult_bytes (bs : List Byte) : decodeResult (bs.map fun b => ⟨.byte, b⟩) = .ok bs := by
  have h : (bs.map fun b => (⟨.byte, b⟩ : Token)).find? (fun t => t.kind == .err) = none := by simp
  have hd : dataOf .byte (bs.map fun b => ⟨.byte, b⟩) = bs := (dataOf_map_same .byte id bs).trans (List.map_id bs)
  simp only [decodeResult, h, hd]

/-- Bytes and then an error are the shape `Err` (R153). -/
theorem decodeResult_bytes_err (bs : List Byte) (c : Byte) :
    decodeResult ((bs.map fun b => ⟨.byte, b⟩) ++ [⟨.err, c⟩]) = .err bs c := by
  have h : (bs.map fun b => (⟨.byte, b⟩ : Token)).find? (fun t => t.kind == .err) = none := by simp
  have h' : ((bs.map fun b => (⟨.byte, b⟩ : Token)) ++ [(⟨.err, c⟩ : Token)]).find? (fun t => t.kind == .err) =
      some (⟨.err, c⟩ : Token) := by
    rw [List.find?_append, h]
    rfl
  have hd : dataOf .byte (bs.map fun b => ⟨.byte, b⟩) = bs := (dataOf_map_same .byte id bs).trans (List.map_id bs)
  simp only [decodeResult, h']
  rw [List.takeWhile_append_of_pos (by simp)]
  simp [hd]

end Sys2Proof.Machine
end

