-- ==== Sys2Proof/Laws/PerInstr.lean ====
section
/-! SUPPORT. A statement about every operation, one lemma for each: its command word selects its row of the opcode map
(spec/30_encoding.md R76). -/

namespace Sys2Proof.Laws.EncodesToItsRow

/-- The word of an operation matches the row of that operation. -/
def Statement (i : Instr) : Prop := i.row.selects (encode i) = true

theorem encStart : Statement .encStart := by unfold Statement; decide

theorem encByte (b : Byte) : Statement (.encByte b) := by
  unfold Statement
  revert b
  decide

theorem encEnd : Statement .encEnd := by unfold Statement; decide

theorem lutS2c (v : Symbol) : Statement (.lutS2c v) := by
  unfold Statement
  revert v
  decide

theorem decStart : Statement .decStart := by unfold Statement; decide

theorem decChar (c : Byte) : Statement (.decChar c) := by
  unfold Statement
  revert c
  decide

theorem decEnd : Statement .decEnd := by unfold Statement; decide

theorem lutC2s (b : Byte) : Statement (.lutC2s b) := by
  unfold Statement
  revert b
  decide

end Sys2Proof.Laws.EncodesToItsRow
end

