-- ==== Sys2Proof/Laws/Step.lean ====
section
/-! SUPPORT. What a step can do, said once, and that the queue of events is not an operation's business. -/

namespace Sys2Proof.Machine

variable {s t : State}

/-- An operation leaves the queue alone. -/
theorem exec_inputs {i : Instr} (h : exec i s = .next t) : t.inputs = s.inputs := by
  rcases exec_next_cases h with ⟨-, rfl⟩ | ⟨b, -, -, rfl⟩ | ⟨-, -, rfl⟩ | ⟨v, -, rfl⟩ | ⟨-, rfl⟩ | ⟨c, -, -, -, rfl⟩ |
    ⟨c, -, -, -, -, rfl⟩ | ⟨c, -, -, -, -, rfl⟩ | ⟨-, -, -, rfl⟩ | ⟨-, -, -, rfl⟩ | ⟨b, -, rfl⟩ <;> simp

/-- An operation does not read the queue. -/
theorem exec_withInputs (i : Instr) (s : State) (q : List Event) :
    exec i { s with inputs := q } =
      match exec i s with
      | .next t => .next { t with inputs := q }
      | .fault f => .fault f
      | .refused r => .refused r := by
  cases i <;>
    simp [exec, execEncStart, execEncByte, execEncEnd, execLutS2c, execLutC2s, execDecStart, execDecChar, execDecEnd,
      State.onEncodeOk, State.onDecodeOk, State.emit, State.emitSymbols, State.emitBytes, State.clearBuffer,
      State.clearCarry, State.clearError, State.setCarry, State.raiseInvalidSymbol, State.acceptSymbol,
      State.setBuffer, State.lastGroup] <;>
    (repeat' split) <;> simp_all <;> (rename_i h; subst h; simp)

/-- Every way in which a step answers a next state. -/
theorem step_next_cases (h : step s = .next t) :
    (s.inputs = [] ∧ t = s) ∨
    (∃ rest, s.inputs = .reset :: rest ∧ t = ({ s with inputs := rest } : State).resetRegisters) ∨
    (∃ w rest i, s.inputs = .command w :: rest ∧ decode w = .legal i ∧ exec i { s with inputs := rest } = .next t) := by
  cases hi : s.inputs with
  | nil =>
    simp only [step, fetch_idle hi, Host.Outcome.next.injEq] at h
    simp [h]
  | cons e rest =>
    cases e with
    | reset =>
      simp only [step, fetch_reset hi, Host.Outcome.next.injEq] at h
      simp [← h]
    | command w =>
      simp only [step, fetch_command hi] at h
      cases hd : decode w with
      | reserved why => simp [hd] at h
      | legal i => simp_all

end Sys2Proof.Machine
end

