-- ==== Sys2Proof/Tests/Slice0.lean ====
section
/-! SUPPORT. Tests of the model, every expected result taken from the spec, and for each statement of
Certificates/Slice0/Obligations.lean that has hypotheses a state and operands that meet them. -/

namespace Sys2Proof.Tests

open Sys2Proof Sys2Proof.Machine

/-! ### Well-formedness: a term each check refuses (spec/30_encoding.md R80, R81) -/

theorem test_wellFormed_rsv : (⟨true, .enc, .data, 0x66#8⟩ : Fields).wellFormed = false := by decide
theorem test_wellFormed_start_data : (⟨false, .enc, .start, 0x01#8⟩ : Fields).wellFormed = false := by decide
theorem test_wellFormed_end_data : (⟨false, .dec, .finish, 0x80#8⟩ : Fields).wellFormed = false := by decide
theorem test_wellFormed_symbol : (⟨false, .enc, .lookup, 0x20#8⟩ : Fields).wellFormed = false := by decide
theorem test_wellFormed_legal : (⟨false, .enc, .lookup, 0x1F#8⟩ : Fields).wellFormed = true := by decide

/-! ### Decoding: words written out from the patterns of R76 -/

theorem test_decode_encStart : decode 0b000000000000#12 = .legal .encStart := by decide
theorem test_decode_encByte : decode 0b000101100110#12 = .legal (.encByte 0b01100110#8) := by decide
theorem test_decode_encEnd : decode 0b001000000000#12 = .legal .encEnd := by decide
theorem test_decode_lutS2c : decode 0b001100001100#12 = .legal (.lutS2c 0b01100#5) := by decide
theorem test_decode_decStart : decode 0b010000000000#12 = .legal .decStart := by decide
theorem test_decode_decChar : decode 0b010101000011#12 = .legal (.decChar 0b01000011#8) := by decide
theorem test_decode_decEnd : decode 0b011000000000#12 = .legal .decEnd := by decide
theorem test_decode_lutC2s : decode 0b011101110101#12 = .legal (.lutC2s 0b01110101#8) := by decide
theorem test_decode_rsv : decode 0b100101100110#12 = .reserved .rsvSet := by decide
theorem test_decode_end_data : decode 0b001000000001#12 = .reserved .dataNotZero := by decide
theorem test_decode_symbol_32 : decode 0b001100100000#12 = .reserved .symbolOutOfRange := by decide
theorem test_decodeTableWord_wide : decodeTableWord 16 0x1166 = none := by decide

/-! ### The tables, at the corners that R100 and R102 name -/

theorem test_alpha_skips : alpha 17#5 = 0x48#8 ∧ alpha 18#5 = 0x4A#8 ∧ alpha 26#5 = 0x54#8 ∧ alpha 27#5 = 0x56#8 := by decide
theorem test_decTab_neighbours :
    decTab 0x2F#8 = 0x00#6 ∧ decTab 0x30#8 = 0x20#6 ∧ decTab 0x3A#8 = 0x00#6 ∧ decTab 0x7A#8 = 0x3F#6 ∧
      decTab 0x7B#8 = 0x00#6 := by decide

/-! ### One step of each operation: the examples of spec/41_encode.md, spec/42_decode.md and spec/40_lut.md -/

/-- A state with the given registers, nothing issued and nothing returned. -/
def regs (ecarry : BitVec 8) (ecnt : BitVec 3) (dacc : BitVec 7) (dcnt : BitVec 3) (derr : Bool) (derrb : BitVec 8) : State :=
  ⟨ecarry, ecnt, dacc, dcnt, derr, derrb, [], []⟩

/-- The encode unit in the middle of a message. -/
def encoding (ecarry : BitVec 8) (ecnt : BitVec 3) : State := regs ecarry ecnt 0x00#7 0#3 false 0x00#8

/-- The decode unit in the middle of a message. -/
def decoding (dacc : BitVec 7) (dcnt : BitVec 3) : State := regs 0x00#8 0#3 dacc dcnt false 0x00#8

/-- The decode unit after `DECODE "confuse"` (spec/95_test_vectors.md V9). -/
def failed : State := regs 0x00#8 0#3 0x78#7 4#3 true 0x75#8

/-- A state in which the word of an operation has been issued. -/
def issued (i : Instr) : State := State.reset.issue [.command (encode i)]

theorem test_encStart : exec .encStart (encoding 0xC0#8 3#3) = .next (encoding 0x00#8 0#3) := by rfl

theorem test_encByte_one_token :
    exec (.encByte 0x66#8) (encoding 0x00#8 0#3) = .next { encoding 0xC0#8 3#3 with tokens := [⟨.char, 0x43#8⟩] } := by rfl

theorem test_encByte_two_tokens :
    exec (.encByte 0x6F#8) (encoding 0xC0#8 3#3) =
      .next { encoding 0x80#8 1#3 with tokens := [⟨.char, 0x53#8⟩, ⟨.char, 0x51#8⟩] } := by rfl

theorem test_encEnd :
    exec .encEnd (encoding 0xC0#8 3#3) = .next { encoding 0x00#8 0#3 with tokens := [⟨.char, 0x52#8⟩] } := by rfl

theorem test_encEnd_empty : exec .encEnd (encoding 0x00#8 0#3) = .next (encoding 0x00#8 0#3) := by rfl

/-- `s0` and `s` of the examples of R112 and R116. -/
theorem test_symbols_made : encSymsFrom failed [0x66#8] = some [12#5, 24#5] := by decide

theorem test_lutS2c : exec (.lutS2c 12#5) failed = .next { failed with tokens := [⟨.lut, 0x43#8⟩] } := by rfl

theorem test_decStart : exec .decStart failed = .next (decoding 0x00#7 0#3) := by rfl

theorem test_decChar_byte :
    exec (.decChar 0x52#8) (decoding 0x30#7 5#3) = .next { decoding 0x00#7 2#3 with tokens := [⟨.byte, 0x66#8⟩] } := by rfl

theorem test_decChar_error :
    exec (.decChar 0x75#8) (decoding 0x78#7 4#3) = .next { failed with tokens := [⟨.err, 0x75#8⟩] } := by rfl

theorem test_decEnd : exec .decEnd (decoding 0x60#7 2#3) = .next (decoding 0x00#7 0#3) := by rfl

theorem test_decEnd_failed : exec .decEnd failed = .next failed := by rfl

theorem test_lutC2s_valid : exec (.lutC2s 0x63#8) failed = .next { failed with tokens := [⟨.lut, 0x2C#8⟩] } := by rfl

theorem test_lutC2s_invalid :
    exec (.lutC2s 0x75#8) State.reset = .next { State.reset with tokens := [⟨.lut, 0x00#8⟩] } := by rfl

theorem test_step_reserved :
    step (State.reset.issue [.command 0x800#12]) = .refused (.reservedWord 0x800#12 .rsvSet) := by rfl

theorem test_step_reset_event : step (failed.issue [.reset]) = .next State.reset := by rfl

theorem test_step_placed_word :
    step (State.reset.withFetchWord 12 0x30C) = .next { State.reset with tokens := [⟨.lut, 0x43#8⟩] } := by rfl

theorem test_text_comment : Text.line "ENC.BYTE 102 ; f".toList = some [.encByte 0x66#8] := by decide

theorem test_text_malformed : Text.line "LUT.S2C 32".toList = none := by decide

/-! ### Hypotheses that can be met, one theorem for each statement that has some

A statement with several clauses has a conjunct for each of them, at the ends of its range. -/

theorem witness_ReservedWordsAreRefused :
    (State.reset.issue [.command 0x800#12]).inputs = .command 0x800#12 :: [] ∧ (0x800#12).getLsbD 11 = true ∧
      ((0x001#12).extractLsb 11 8 = 0x0#4 ∧ (0x001#12).extractLsb 7 0 ≠ 0x00#8) ∧
      ((0x6FF#12).extractLsb 11 8 = 0x6#4 ∧ (0x6FF#12).extractLsb 7 0 ≠ 0x00#8) ∧
      ((0x320#12).extractLsb 11 8 = 0x3#4 ∧ (0x320#12).extractLsb 7 5 ≠ 0b000#3) := by decide

theorem witness_StepPerformsTheDecodedCommand :
    (issued (.encByte 0x66#8)).inputs = .command 0x166#12 :: [] ∧ decode 0x166#12 = .legal (.encByte 0x66#8) := by decide

theorem witness_BlockIsIdleBetweenCommands : State.reset.inputs = [] := by decide

theorem witness_ResetZeroesTheRegisters : (failed.issue [.reset, .command 0x200#12]).inputs = .reset :: [.command 0x200#12] := by
  decide

theorem witness_ResetIsBothStarts : (failed.issue [.reset]).inputs = .reset :: [] := by decide

theorem witness_StartOfMessageState :
    (∃ t, exec .encStart failed = .next t) ∧ (∃ t, exec .encEnd (encoding 0xF0#8 4#3) = .next t) ∧
      (∃ t, exec .decStart failed = .next t) ∧ (decoding 0x7F#7 7#3).derr = false ∧
      (∃ t, exec .decEnd (decoding 0x7F#7 7#3) = .next t) :=
  ⟨⟨_, rfl⟩, ⟨_, rfl⟩, ⟨_, rfl⟩, rfl, ⟨_, rfl⟩⟩

theorem witness_RunPerformsCommandsInOrder :
    (State.reset.issue [.command 0x166#12, .command 0x200#12, .reset]).inputs =
      [Instr.encByte 0x66#8, .encEnd].map (fun i => .command (encode i)) ++ [.reset] := by decide

theorem witness_TokensReturnedByEachCommand :
    (∃ t, exec (.encByte 0x6F#8) (encoding 0xC0#8 3#3) = .next t ∧ (newTokens (encoding 0xC0#8 3#3) t).length = 2) ∧
      (∃ t, exec (.decChar 0x75#8) (decoding 0x78#7 4#3) = .next t) ∧ (∃ t, exec .decEnd failed = .next t) :=
  ⟨⟨_, rfl, by decide⟩, ⟨_, rfl⟩, ⟨_, rfl⟩⟩

theorem witness_TokensAreOnlyAppended :
    ∃ t, step (issued (.lutC2s 0x75#8)) = .next t ∧ t.tokens ≠ (issued (.lutC2s 0x75#8)).tokens :=
  ⟨_, rfl, by decide⟩

theorem witness_AlphaIsTheCanonicalAlphabet :
    (9#5).toNat < 10 ∧ 10 ≤ (10#5).toNat ∧ (Instr.encEnd).isEnc = true ∧
      ∃ t, exec .encEnd (encoding 0xF0#8 4#3) = .next t ∧ dataOf .char (newTokens (encoding 0xF0#8 4#3) t) = [0x59#8] :=
  ⟨by decide, by decide, rfl, _, rfl, by decide⟩

theorem witness_DecodeTableClauses :
    (9#4).toNat ≤ 9 ∧ 10 ≤ (10#5).toNat ∧ 10 ≤ (31#5).toNat ∧ (0x2F#8).toNat < 0x30 ∧
      (0x3A ≤ (0x3A#8).toNat ∧ (0x40#8).toNat ≤ 0x40) ∧ (0x5B ≤ (0x5B#8).toNat ∧ (0x60#8).toNat ≤ 0x60) ∧
      0x7B ≤ (0x7B#8).toNat := by decide

theorem witness_TablesAgree : 0x41 ≤ (0x41#8).toNat ∧ (0x5A#8).toNat ≤ 0x5A := by decide

theorem witness_LutC2sReturnsTheEntry :
    entryValid (decTab 0x30#8) = true ∧ entryValid (decTab 0x7A#8) = true ∧ entryValid (decTab 0xFF#8) = false := by decide

theorem witness_LookupLaws :
    exec (.lutS2c 31#5) failed = .next { failed with tokens := failed.tokens ++ [⟨.lut, 0x5A#8⟩] } ∧
      0x41 ≤ (0x55#8).toNat ∧ (0x55#8).toNat ≤ 0x5A := ⟨rfl, by decide, by decide⟩

theorem witness_DecCharUsesTheLookup :
    (decoding 0x7F#7 7#3).DecodeOk ∧ (decoding 0x7F#7 7#3).derr = false ∧
      (∃ t, exec (.decChar 0x30#8) (decoding 0x7F#7 7#3) = .next t ∧ t.derr = false) ∧
      (∃ t, exec (.decChar 0x55#8) (decoding 0x7F#7 7#3) = .next t ∧ t.derr = true) :=
  ⟨by decide, rfl, ⟨_, rfl, rfl⟩, ⟨_, rfl, rfl⟩⟩

theorem witness_EncByteFollowsItsPseudocode :
    ∀ s ∈ [encoding 0x00#8 0#3, encoding 0x80#8 1#3, encoding 0xC0#8 2#3, encoding 0xF0#8 4#3],
      s.ecnt.toNat ≤ 4 ∧ s.ecarry.toNat % 2 ^ (8 - s.ecnt.toNat) = 0 := by decide

theorem witness_EncByteCaseByCase :
    ∀ s ∈ [encoding 0x00#8 0#3, encoding 0x80#8 1#3, encoding 0xC0#8 2#3, encoding 0xE0#8 3#3, encoding 0xF0#8 4#3],
      s.EncodeOk := by decide

theorem witness_CarryComesFromTheLastByte :
    (encoding 0xA0#8 3#3).ecnt = (encoding 0xE0#8 3#3).ecnt ∧ (∃ t, exec (.encByte 0xFF#8) (encoding 0xA0#8 3#3) = .next t) ∧
      (∃ t, exec (.encByte 0xFF#8) (encoding 0xE0#8 3#3) = .next t) := ⟨rfl, ⟨_, rfl⟩, ⟨_, rfl⟩⟩

theorem witness_EncEndFlushesTheCarry :
    ∀ s ∈ [encoding 0x00#8 0#3, encoding 0x80#8 1#3, encoding 0xF0#8 4#3],
      s.ecnt.toNat ≤ 4 ∧ s.ecarry.toNat % 2 ^ (8 - s.ecnt.toNat) = 0 := by decide

theorem witness_DecCharFollowsItsPseudocode :
    (∀ s ∈ [decoding 0x00#7 0#3, decoding 0x60#7 2#3, decoding 0x70#7 3#3, decoding 0x7F#7 7#3],
      s.derr = false ∧ s.derrb = 0x00#8 ∧ s.dacc.toNat % 2 ^ (7 - s.dcnt.toNat) = 0) ∧
      entryValid (decTab 0x55#8) = false ∧ entryValid (decTab 0x5A#8) = true := by decide

theorem witness_DecCharCaseByCase :
    (∀ s ∈ [decoding 0x00#7 0#3, decoding 0x40#7 1#3, decoding 0x60#7 2#3, decoding 0x70#7 3#3, decoding 0x78#7 4#3,
        decoding 0x7C#7 5#3, decoding 0x7E#7 6#3, decoding 0x7F#7 7#3], s.DecodeOk ∧ s.derr = false) ∧
      entryValid (decTab 0x5A#8) = true := by decide

theorem witness_DecCharIgnoredAfterError : failed.DecodeOk ∧ failed.derr = true := by decide

theorem witness_DecEndDiscardsTheLeftover :
    ((decoding 0x7F#7 7#3).DecodeOk ∧ (decoding 0x7F#7 7#3).derr = false) ∧ failed.DecodeOk ∧ failed.derr = true := by decide

theorem witness_BytesThatRaiseInvalidSymbol : (decoding 0x7F#7 7#3).DecodeOk ∧ (decoding 0x7F#7 7#3).derr = false := by decide

/-- Also for `LeftoverByMessageLength`, `DecodeClosedForm`, `LengthLaws` and `MessagesConcatenate`. -/
theorem witness_DecodeTokenCount :
    AllValid [] ∧ AllValid [0x43#8, 0x4F#8, 0x4E#8, 0x46#8] ∧ invalidSymbol 0x75#8 = true := by decide

theorem witness_DecodeStatusMachine :
    failed.derr = true ∧ (∃ t, exec (.decChar 0x30#8) failed = .next t) ∧ (∃ t, exec .decEnd failed = .next t) ∧
      (∃ t, exec .decStart failed = .next t ∧ t.derrOut ≠ failed.derrOut) ∧
      (∃ t, step (issued (.decChar 0x55#8)) = .next t ∧ t.derrOut ≠ (issued (.decChar 0x55#8)).derrOut) ∧
      (∃ t, step (failed.issue [.reset]) = .next t ∧ t.derrbOut ≠ failed.derrbOut) :=
  ⟨rfl, ⟨_, rfl⟩, ⟨_, rfl⟩, ⟨_, rfl, by decide⟩, ⟨_, rfl, by decide⟩, ⟨_, rfl, by decide⟩⟩

theorem witness_ErrorIsStickyUntilDecStart :
    failed.derr = true ∧ Instr.decStart ∉ [Instr.decChar 0x30#8, .decEnd, .encByte 0x66#8] ∧
      ∃ t, perform [.decChar 0x30#8, .decEnd, .encByte 0x66#8] failed = .next t := ⟨rfl, by decide, ⟨_, rfl⟩⟩

theorem witness_UnitsAreDisjoint :
    (∃ t, exec (.encByte 0x66#8) failed = .next t) ∧ (Instr.encByte 0x66#8).isDec = false ∧
      (∃ t, exec (.decChar 0x43#8) (decoding 0x7F#7 7#3) = .next t) ∧ (Instr.decChar 0x43#8).isEnc = false ∧
      (∃ t, exec .decEnd failed = .next t) := ⟨⟨_, rfl⟩, rfl, ⟨_, rfl⟩, rfl, ⟨_, rfl⟩⟩

theorem witness_EncodeAndDecodeCommute :
    (Instr.encByte 0x66#8).isEnc = true ∧ (Instr.decChar 0x43#8).isDec = true ∧
      ∃ u t, exec (.encByte 0x66#8) (decoding 0x7F#7 7#3) = .next u ∧ exec (.decChar 0x43#8) u = .next t :=
  ⟨rfl, rfl, _, _, rfl, rfl⟩

theorem witness_StepKeepsTheInvariant :
    failed.Inv ∧ (∃ t, step (failed.issue [.command 0x166#12]) = .next t) ∧ (∃ t, step (failed.issue [.reset]) = .next t) ∧
      ∃ t, step failed = .next t := ⟨by decide, ⟨_, rfl⟩, ⟨_, rfl⟩, ⟨_, rfl⟩⟩

theorem witness_LegalCommandsComplete : failed.Inv ∧ (encoding 0xF0#8 4#3).Inv ∧ (decoding 0x7F#7 7#3).Inv := by decide

theorem witness_LegalSequencesRunToTheEnd :
    (failed.issue [.reset, .command (encode (.encByte 0x66#8))]).Inv ∧
      ∀ e ∈ (failed.issue [.reset, .command (encode (.encByte 0x66#8))]).inputs,
        e = .reset ∨ ∃ i, e = .command (encode i) := by
  refine ⟨by decide, ?_⟩
  intro e he
  rcases List.mem_cons.mp he with rfl | he
  · exact .inl rfl
  · exact .inr ⟨_, List.mem_singleton.mp he⟩

theorem witness_UnreachableStatesAreRefused :
    ¬(encoding 0x00#8 5#3).EncodeOk ∧ ¬(encoding 0x01#8 0#3).EncodeOk ∧ ¬(decoding 0x01#7 6#3).DecodeOk ∧
      ¬(regs 0x00#8 0#3 0x00#7 0#3 false 0x01#8).DecodeOk := by decide

theorem witness_BitsAreConserved :
    (regs 0xC0#8 3#3 0x30#7 5#3 false 0x00#8).Inv ∧ Conserved (regs 0xC0#8 3#3 0x30#7 5#3 false 0x00#8) ⟨1, 1, 1, 0⟩ ∧
      ∃ t, step ((regs 0xC0#8 3#3 0x30#7 5#3 false 0x00#8).issue [.command 0x552#12]) = .next t :=
  ⟨by decide, by decide, ⟨_, rfl⟩⟩

theorem witness_CountsFollowTheMessageLength :
    (failed.Inv ∧ CountsTracked failed ⟨0, 0, 4, 2⟩ ∧ ∃ t, step (failed.issue [.command 0x543#12]) = .next t) ∧
    (regs 0xC0#8 3#3 0x30#7 5#3 false 0x00#8).Inv ∧ CountsTracked (regs 0xC0#8 3#3 0x30#7 5#3 false 0x00#8) ⟨1, 1, 1, 0⟩ ∧
      ∃ t, step ((regs 0xC0#8 3#3 0x30#7 5#3 false 0x00#8).issue [.command 0x166#12]) = .next t :=
  ⟨⟨by decide, by decide, ⟨_, rfl⟩⟩, by decide, by decide, ⟨_, rfl⟩⟩

theorem witness_InstancesAreIsolated :
    (∃ t, step [State.reset, failed][1] = .next t) ∧
      ∃ all', stepInstance [State.reset, failed] ⟨1, by decide⟩ = .next all' := ⟨⟨_, rfl⟩, ⟨_, rfl⟩⟩

theorem witness_DecodeIgnoresCase :
    List.Forall₂ CaseVariant [0x43#8, 0x75#8, 0x30#8] [0x63#8, 0x55#8, 0x30#8] :=
  .cons (.inr (by decide)) (.cons (.inr (by decide)) (.cons (.inl rfl) .nil))

theorem witness_DecodeFoldsLookAlikes :
    List.Forall₂ LookAlike [0x30#8, 0x31#8, 0x31#8, 0x55#8] [0x6F#8, 0x4C#8, 0x69#8, 0x55#8] :=
  .cons (by decide) (.cons (by decide) (.cons (by decide) (.cons (by decide) .nil)))

theorem witness_DecodeIsLenientAboutTheTail :
    AllValid [0x43#8, 0x52#8] ∧ AllValid [0x43#8, 0x56#8] ∧ invalidSymbol 0x5A#8 = false ∧
      (5 * [0x43#8, 0x52#8].length) % 8 ≤ 2 ∧ ¬(5 * [0x43#8].length) % 8 ≤ 2 ∧
      (streamOf (symbolsOf [0x43#8, 0x52#8])).take 8 = (streamOf (symbolsOf [0x43#8, 0x56#8])).take 8 := by decide

theorem witness_DecodeRejectsInvalidCharacters :
    decodeFrom State.reset [0x43#8, 0x75#8] = some (.err [] 0x75#8) := by decide

theorem witness_EncodeOfDecodeIsCanonical :
    decodeFrom State.reset [0x43#8, 0x52#8] = some (.ok [0x66#8]) ∧
      decodeFrom State.reset [0x63#8, 0x72#8, 0x6F#8] = some (.ok [0x66#8]) := by decide

theorem witness_MessagesConcatenate :
    [0x66#8, 0x6F#8, 0x6F#8, 0x62#8, 0x61#8].length % 5 = 0 ∧
      AllValid [0x43#8, 0x53#8, 0x51#8, 0x50#8, 0x59#8, 0x52#8, 0x4B#8, 0x31#8] ∧
      [0x43#8, 0x53#8, 0x51#8, 0x50#8, 0x59#8, 0x52#8, 0x4B#8, 0x31#8].length % 8 = 0 := by decide

theorem witness_InterleavedMessagesDoNotMix :
    ∃ t, perform [.encStart, .decStart, .encByte 0x66#8, .decChar 0x43#8, .lutS2c 12#5, .encEnd, .decEnd] failed = .next t :=
  ⟨_, rfl⟩

end Sys2Proof.Tests
end

