-- ==== Sys2Proof/Proofs/State.lean ====
section
/-! SUPPORT. Proofs of the statements of spec/10_state.md: the start-of-message state (R33) and bit conservation (R32). -/

namespace Sys2Proof.Machine

variable {s t : State}

/-! ### The start-of-message state -/

/-- Settles O10: the outcome of each of the four operations has zeros in the registers it clears (R33). -/
theorem startOfMessageState : Obligations.StartOfMessageState := by
  unfold Obligations.StartOfMessageState
  refine ⟨⟨rfl, rfl, rfl, rfl, rfl, rfl⟩, fun s t => ⟨fun h => ?encStart, fun h => ?encEnd, fun h => ?decStart,
    fun he h => ?decEnd⟩⟩
  case encStart =>
    cases (exec_encStart s).symm.trans h
    exact ⟨rfl, rfl⟩
  case encEnd =>
    obtain ⟨-, rfl⟩ := exec_encEnd_next_iff.mp h
    exact ⟨rfl, rfl⟩
  case decStart =>
    cases (exec_decStart s).symm.trans h
    exact ⟨rfl, rfl, rfl, rfl⟩
  case decEnd =>
    obtain ⟨-, rfl⟩ := exec_decEnd_next_iff.mp h
    simp [he, State.reset]

/-! ### The bits of one data operation -/

/-- `ENC.BYTE` takes 8 bits, and returns 5 with each `CHAR` token and holds the rest. -/
theorem exec_encByte_bit_count {b : Byte} (h : exec (.encByte b) s = .next t) :
    5 * (dataOf .char (newTokens s t)).length + t.ecnt.toNat = s.ecnt.toNat + 8 := by
  have hs : s.EncodeOk := (exec_encByte_next_iff.mp h).1
  obtain ⟨vs, u, hu, hframe, hbits, hok, -⟩ := exec_encByte_spec hs b
  cases hu.symm.trans h
  have hnew : newTokens s t = vs.map fun v => ⟨.char, alpha v⟩ := newTokens_of_append (by rw [hframe])
  have hlen := congrArg List.length hbits
  simp only [List.length_append, length_carryBits hs, length_carryBits hok, length_bitsOf, length_streamOf] at hlen
  rw [hnew, dataOf_map_same, List.length_map]
  exact hlen.symm

/-- `DEC.CHAR` with a valid character and `DERR = 0` takes 5 bits, and returns 8 with each `BYTE` token and holds the
rest. -/
theorem exec_decChar_bit_count {c : Byte} (he : s.derr = false) (hv : invalidSymbol c = false)
    (h : exec (.decChar c) s = .next t) :
    8 * (dataOf .byte (newTokens s t)).length + t.dcnt.toNat = s.dcnt.toNat + 5 := by
  have hs : s.DecodeOk := (exec_decChar_next_iff.mp h).1
  obtain ⟨bs, u, hu, hframe, hbits, -, -⟩ := exec_decChar_spec hs he hv
  cases hu.symm.trans h
  have hnew : newTokens s t = bs.map fun b => ⟨.byte, id b⟩ := newTokens_of_append (by rw [hframe]; rfl)
  have hlen := congrArg List.length hbits
  simp only [List.length_append, length_bufferBits, length_bitsOf, length_streamOf] at hlen
  rw [hnew, dataOf_map_same, List.length_map]
  exact hlen.symm

/-! ### The ghost counters along a step -/

/-- Every way in which a step answers a next state, with what it does to the ghost counters (R31). -/
theorem step_counters_cases (g : Counters) (h : step s = .next t) :
    (t = s ∧ g.afterStep s t = g) ∨
    (∃ rest, t = ({ s with inputs := rest } : State).resetRegisters ∧ g.afterStep s t = Counters.zero) ∨
    (∃ rest i, exec i { s with inputs := rest } = .next t ∧
      g.afterStep s t = g.after i { s with inputs := rest } t) := by
  rcases step_next_cases h with ⟨hi, ht⟩ | ⟨rest, hi, ht⟩ | ⟨w, rest, i, hi, hw, ht⟩
  · exact .inl ⟨ht, by simp [Counters.afterStep, fetch_idle hi]⟩
  · exact .inr (.inl ⟨rest, ht, by simp [Counters.afterStep, fetch_reset hi]⟩)
  · exact .inr (.inr ⟨rest, i, ht, by simp [Counters.afterStep, fetch_command hi, hw]⟩)

/-! ### Bit conservation -/

/-- Zero registers of both counts and zero counters conserve the bits: nothing consumed, returned or held. -/
theorem conserved_zero (he : s.ecnt = 0#3) (hd : s.dcnt = 0#3) : Conserved s Counters.zero := by
  simp [Conserved, Counters.zero, he, hd]

/-- Every operation conserves the bits: a data operation by its bit count, and where a count is cleared its two counters are
cleared with it. -/
theorem exec_keeps_conserved {g : Counters} {i : Instr} (hc : Conserved s g) (h : exec i s = .next t) :
    Conserved t (g.after i s t) := by
  obtain ⟨henc, hdec⟩ := hc
  cases i with
  | encStart =>
    cases (exec_encStart s).symm.trans h
    exact ⟨rfl, hdec⟩
  | encByte b =>
    have hcount := exec_encByte_bit_count h
    obtain ⟨-, ht⟩ := exec_encByte_next_iff.mp h
    refine ⟨?_, by simpa [ht, Counters.after] using hdec⟩
    simp only [Counters.after]
    omega
  | encEnd =>
    obtain ⟨-, rfl⟩ := exec_encEnd_next_iff.mp h
    exact ⟨rfl, hdec⟩
  | lutS2c v =>
    cases (exec_lutS2c v s).symm.trans h
    exact ⟨henc, hdec⟩
  | decStart =>
    cases (exec_decStart s).symm.trans h
    exact ⟨henc, fun _ => rfl⟩
  | decChar c =>
    obtain ⟨-, ht⟩ := exec_decChar_next_iff.mp h
    cases he : s.derr with
    | true =>
      obtain rfl : t = s := by simpa [he] using ht
      simpa [Conserved, Counters.after, he] using henc
    | false =>
      cases hv : invalidSymbol c with
      | true =>
        obtain rfl : t = s.raiseInvalidSymbol c := by simpa [he, hv] using ht
        simpa [Conserved, Counters.after, hv] using henc
      | false =>
        have hcount := exec_decChar_bit_count he hv h
        have hheld := hdec he
        refine ⟨by simpa [ht, Counters.after, he, hv] using henc, fun _ => ?_⟩
        simp only [Counters.after, he, hv, and_self, if_true]
        omega
  | decEnd =>
    obtain ⟨-, ht⟩ := exec_decEnd_next_iff.mp h
    cases he : s.derr with
    | true =>
      obtain rfl : t = s := by simpa [he] using ht
      simpa [Conserved, Counters.after, he] using henc
    | false =>
      obtain rfl : t = s.clearBuffer := by simpa [he] using ht
      simpa [Conserved, Counters.after, he] using henc
  | lutC2s b =>
    cases (exec_lutC2s b s).symm.trans h
    exact ⟨henc, hdec⟩

/-- Settles O47: an idle step changes nothing, a reset clears counts and counters, and an operation conserves the bits
(R32). -/
theorem bitsAreConserved : Obligations.BitsAreConserved := by
  unfold Obligations.BitsAreConserved
  refine ⟨conserved_zero rfl rfl, fun s t g _ hc h => ?_⟩
  rcases step_counters_cases g h with ⟨rfl, hg⟩ | ⟨rest, rfl, hg⟩ | ⟨rest, i, hi, hg⟩ <;> rw [hg]
  · exact hc
  · exact conserved_zero rfl rfl
  · exact exec_keeps_conserved hc hi

end Sys2Proof.Machine
end

