-- ==== Sys2Proof/Proofs/Memory.lean ====
section
/-! SUPPORT. Proofs of the statements of spec/20_memory.md: the alphabet (R42), the clauses of the decode table (R45) and how
the two tables agree (R47). A table's contents are checked entry by entry once, in the lemmas about single entries; the
statements follow from these. -/

namespace Sys2Proof.Machine

variable {s t : State}

/-! ### The alphabet -/

/-- The typed-in table is the string of R42. -/
theorem canonicalAlphabet_getElem? (v : Symbol) :
    Config.canonicalAlphabet[v.toNat]?.map Config.charCode = some (alpha v) := by
  revert v
  decide

/-- Decoding undoes `ALPHA`, so no two values share a character. -/
theorem alpha_injective : Function.Injective alpha :=
  Function.LeftInverse.injective (g := fun c => entryValue (decTab c)) entryValue_decTab_alpha

/-- The values 0 to 9 have the digits (R42). -/
theorem alpha_of_lt_ten {v : Symbol} (h : v.toNat < 10) : alpha v = 0x30#8 + v.setWidth 8 := by
  revert v
  decide

/-- The values 10 to 31 have upper-case letters (R42). -/
theorem alpha_letter {v : Symbol} (h : 10 ≤ v.toNat) : 0x41 ≤ (alpha v).toNat ∧ (alpha v).toNat ≤ 0x5A := by
  revert v
  decide

/-- The four letters that are not in the alphabet (R42). -/
theorem alpha_ne_excluded (v : Symbol) :
    alpha v ≠ 0x49#8 ∧ alpha v ≠ 0x4C#8 ∧ alpha v ≠ 0x4F#8 ∧ alpha v ≠ 0x55#8 := by
  revert v
  decide

/-- The characters that an operation returns are those of the symbol values it computes. -/
theorem dataOf_char_newTokens {i : Instr} (h : exec i s = .next t) :
    dataOf .char (newTokens s t) = (symbolsMade i s).map alpha := by
  rw [dataOf, exec_symbolsMade h, List.map_map]
  rfl

/-- Settles O16: the table is the string of R42 entry by entry, and every character that the encode unit returns is looked up
in it. -/
theorem alphaIsTheCanonicalAlphabet : Obligations.AlphaIsTheCanonicalAlphabet := by
  unfold Obligations.AlphaIsTheCanonicalAlphabet
  refine ⟨canonicalAlphabet_getElem?, rfl, fun v w h => alpha_injective h, fun v h => ?digit, fun v h => alpha_letter h,
    alpha_ne_excluded, fun i s t _ h c hc => ?returned⟩
  case digit =>
    rw [alpha_of_lt_ten h, BitVec.toNat_add, BitVec.toNat_setWidth, BitVec.toNat_ofNat]
    omega
  case returned =>
    rw [dataOf_char_newTokens h] at hc
    obtain ⟨v, -, rfl⟩ := List.mem_map.mp hc
    exact ⟨v, rfl⟩

/-! ### Single entries of the decode table -/

/-- The entry `0x20 + v` is the valid one with value `v` (R44). -/
theorem entry_eq_iff {e : Entry} {v : Symbol} :
    e = 0x20#6 + v.setWidth 6 ↔ entryValid e = true ∧ entryValue e = v := by
  constructor
  · rintro rfl
    revert v
    decide
  · rintro ⟨h, rfl⟩
    exact valid_entry_eq e h

/-- A canonical character decodes to its own value (R47 (a)). -/
theorem decTab_alpha (v : Symbol) : decTab (alpha v) = 0x20#6 + v.setWidth 6 :=
  entry_eq_iff.mpr ⟨by simpa [invalidSymbol] using invalidSymbol_alpha v, entryValue_decTab_alpha v⟩

/-- The rows of the lower-case letters repeat those of the upper-case ones (R47 (d)). -/
theorem decTab_lowerCase {b : Byte} (h₁ : 0x41 ≤ b.toNat) (h₂ : b.toNat ≤ 0x5A) : decTab (b + 0x20#8) = decTab b := by
  revert b
  decide

/-- A canonical letter in lower case decodes as in upper case (R45). -/
theorem decTab_alpha_lowerCase {v : Symbol} (h : 10 ≤ v.toNat) : decTab (alpha v + 0x20#8) = 0x20#6 + v.setWidth 6 := by
  obtain ⟨h₁, h₂⟩ := alpha_letter h
  rw [decTab_lowerCase h₁ h₂, decTab_alpha]

/-- A digit decodes to its value: it is the canonical character of that value (R45). -/
theorem decTab_digit {d : BitVec 4} (h : d.toNat ≤ 9) : decTab (0x30#8 + d.setWidth 8) = 0x20#6 + d.setWidth 6 := by
  have hd : (d.setWidth 5).toNat < 10 := by
    rw [BitVec.toNat_setWidth]
    omega
  have := decTab_alpha (d.setWidth 5)
  rwa [alpha_of_lt_ten hd, BitVec.setWidth_setWidth (by decide), BitVec.setWidth_setWidth (by decide)] at this

/-- A byte that is neither a digit nor a letter is invalid (R45). -/
theorem decTab_of_not_alphanumeric {b : Byte}
    (h : b.toNat < 0x30 ∨ (0x3A ≤ b.toNat ∧ b.toNat ≤ 0x40) ∨ (0x5B ≤ b.toNat ∧ b.toNat ≤ 0x60) ∨ 0x7B ≤ b.toNat) :
    decTab b = 0x00#6 := by
  revert b
  decide

/-! ### Counting entries -/

set_option maxRecDepth 4000 in
/-- Reading every entry in turn gives the grid, row after row. -/
theorem map_decTab_range : (List.range 256).map (fun n => decTab (BitVec.ofNat 8 n)) = decTabRows.flatten := by
  decide

/-- Entries may be counted row by row. -/
theorem countP_decTab (p : Entry → Bool) :
    ((List.range 256).countP fun n => p (decTab (BitVec.ofNat 8 n))) = (decTabRows.map (List.countP p)).sum := by
  rw [← List.countP_flatten, ← map_decTab_range, List.countP_map]
  rfl

/-- Settles O17: the digits and the letters by their canonical characters, the look-alikes and `U` by their entries, and the
counts row by row (R45). -/
theorem decodeTableClauses : Obligations.DecodeTableClauses := by
  unfold Obligations.DecodeTableClauses
  refine ⟨fun d h => decTab_digit h, fun v h => ⟨decTab_alpha v, decTab_alpha_lowerCase h⟩, by decide, by decide, by decide,
    fun b h => decTab_of_not_alphanumeric h, ?valid, ?invalid⟩
  case valid =>
    rw [countP_decTab]
    decide
  case invalid =>
    rw [countP_decTab (· == 0x00#6)]
    decide

/-! ### The inverse table -/

/-- The inverse table of R47: the bytes that decode to a value, the canonical character first. -/
def bytesFor (v : Symbol) : List Byte :=
  alpha v ::
    if v.toNat = 0 then [0x4F#8, 0x6F#8]
    else if v.toNat = 1 then [0x49#8, 0x4C#8, 0x69#8, 0x6C#8]
    else if v.toNat ≤ 9 then []
    else [alpha v + 0x20#8]

theorem length_bytesFor (v : Symbol) :
    (bytesFor v).length = if v.toNat = 0 then 3 else if v.toNat = 1 then 5 else if v.toNat ≤ 9 then 1 else 2 := by
  unfold bytesFor
  split_ifs <;> rfl

theorem nodup_bytesFor (v : Symbol) : (bytesFor v).Nodup := by
  revert v
  decide

theorem mem_bytesFor_iff {v : Symbol} {b : Byte} :
    b ∈ bytesFor v ↔
      b = alpha v ∨ (10 ≤ v.toNat ∧ b = alpha v + 0x20#8) ∨ (v = 0#5 ∧ (b = 0x4F#8 ∨ b = 0x6F#8)) ∨
        (v = 1#5 ∧ (b = 0x49#8 ∨ b = 0x4C#8 ∨ b = 0x69#8 ∨ b = 0x6C#8)) := by
  have h₀ : v = 0#5 ↔ v.toNat = 0 := BitVec.toNat_eq
  have h₁ : v = 1#5 ↔ v.toNat = 1 := BitVec.toNat_eq
  rw [h₀, h₁, bytesFor, List.mem_cons]
  refine or_congr_right ?_
  split_ifs with hz ho hd
  · simp [hz]
  · simp [ho]
  · simp [hz, ho, show ¬10 ≤ v.toNat by omega]
  · simp [hz, ho, show 10 ≤ v.toNat by omega]

/-- Every valid byte stands in the inverse table at its own value. -/
theorem mem_bytesFor_entryValue {b : Byte} (h : entryValid (decTab b) = true) : b ∈ bytesFor (entryValue (decTab b)) := by
  revert b
  decide

/-- The inverse table inverts `DECTAB` (R47). -/
theorem decTab_eq_iff_mem_bytesFor {v : Symbol} {b : Byte} : decTab b = 0x20#6 + v.setWidth 6 ↔ b ∈ bytesFor v := by
  constructor
  · intro h
    obtain ⟨hvalid, rfl⟩ := entry_eq_iff.mp h
    exact mem_bytesFor_entryValue hvalid
  · rw [mem_bytesFor_iff]
    rintro (rfl | ⟨h, rfl⟩ | ⟨rfl, rfl | rfl⟩ | ⟨rfl, rfl | rfl | rfl | rfl⟩)
    · exact decTab_alpha v
    · exact decTab_alpha_lowerCase h
    all_goals decide

/-- Counting the bytes with a property is listing them without repetition. -/
theorem countP_range_eq_length {p : Byte → Bool} {l : List Byte} (hl : l.Nodup) (h : ∀ b, p b = true ↔ b ∈ l) :
    ((List.range 256).countP fun n => p (BitVec.ofNat 8 n)) = l.length := by
  have hinj : ∀ m ∈ List.range 256, ∀ n ∈ List.range 256, BitVec.ofNat 8 m = BitVec.ofNat 8 n → m = n := by
    intro m hm n hn hmn
    rw [List.mem_range] at hm hn
    simpa [Nat.mod_eq_of_lt hm, Nat.mod_eq_of_lt hn] using congrArg BitVec.toNat hmn
  have hall : ∀ b : Byte, b ∈ (List.range 256).map (BitVec.ofNat 8) := fun b =>
    List.mem_map.mpr ⟨b.toNat, List.mem_range.mpr b.isLt, by simp⟩
  have hperm : (((List.range 256).map (BitVec.ofNat 8)).filter p).Perm l :=
    (List.perm_ext_iff_of_nodup ((List.nodup_range.map_on hinj).filter p) hl).mpr fun b => by simp [hall b, h b]
  rw [← hperm.length_eq, ← List.countP_eq_length_filter, List.countP_map]
  rfl

/-- Settles O18: how many bytes stand for a value, and which, is read off the inverse table (R47). -/
theorem tablesAgree : Obligations.TablesAgree := by
  unfold Obligations.TablesAgree
  refine ⟨decTab_alpha, fun v => ?_, fun v b => decTab_eq_iff_mem_bytesFor.trans mem_bytesFor_iff,
    fun b h₁ h₂ => decTab_lowerCase h₁ h₂⟩
  rw [← length_bytesFor]
  exact countP_range_eq_length (nodup_bytesFor v) fun b => beq_iff_eq.trans decTab_eq_iff_mem_bytesFor

end Sys2Proof.Machine
end

