-- ==== Sys2Proof/Proofs/Encoding.lean ====
section
/-! SUPPORT. Proofs of the statements of spec/30_encoding.md: which words are reserved and that a step refuses them (R80 to
R82), what each command returns (R74), and the counts of words (R77). The reserved words are read off one rule by opcode,
`reasonAt`, which `defect_append` shows to be the decoder's check. -/

namespace Sys2Proof.Machine

variable {s t : State}

/-! ### A command word as an opcode followed by its data -/

/-- A word is its opcode followed by its data (R71). -/
theorem exists_opcode_append (w : CommandWord) : ∃ (op : BitVec 4) (d : Byte), w = op ++ d :=
  have happend : w.extractLsb' 8 4 ++ w.extractLsb' 0 8 = w :=
    (BitVec.extractLsb'_append_extractLsb'_eq_extractLsb' rfl).trans BitVec.extractLsb'_eq_self
  ⟨_, _, happend.symm⟩

theorem opcode_append (op : BitVec 4) (d : Byte) : (op ++ d).extractLsb 11 8 = op :=
  BitVec.extractLsb'_append_eq_left

theorem data_append (op : BitVec 4) (d : Byte) : (op ++ d).extractLsb 7 0 = d :=
  BitVec.extractLsb'_append_eq_right

theorem symbolZeros_append (op : BitVec 4) (d : Byte) : (op ++ d).extractLsb 7 5 = d.extractLsb 7 5 :=
  BitVec.extractLsb'_append_eq_of_add_le (by decide)

theorem rsv_append (op : BitVec 4) (d : Byte) : (op ++ d).getLsbD 11 = op.getLsbD 3 :=
  BitVec.getLsbD_append

/-- The opcode holds `rsv`, `unit` and `fn` (R71). -/
theorem fieldsOf_append (op : BitVec 4) (d : Byte) :
    fieldsOf (op ++ d) = ⟨op.getLsbD 3, Side.ofBit (op.getLsbD 2), Fn.ofBits (op.extractLsb 1 0), d⟩ := by
  have hfn : (op ++ d).extractLsb 9 8 = op.extractLsb 1 0 := BitVec.extractLsb'_append_eq_of_le (by decide)
  have hside : (op ++ d).getLsbD 10 = op.getLsbD 2 := BitVec.getLsbD_append
  rw [fieldsOf, hfn, hside, rsv_append, data_append]

/-! ### The reserved words by opcode -/

/-- The opcodes of the operations without an operand (R81). -/
abbrev OperandlessOpcode (op : BitVec 4) : Prop := op = 0x0#4 ∨ op = 0x2#4 ∨ op = 0x4#4 ∨ op = 0x6#4

/-- R80 and R81 by opcode: why a word with the given opcode and data is reserved, if it is. -/
def reasonAt (op : BitVec 4) (d : Byte) : Option ReservedReason :=
  if op.getLsbD 3 then some .rsvSet
  else if OperandlessOpcode op then if d = 0x00#8 then none else some .dataNotZero
  else if op = 0x3#4 then if d.extractLsb 7 5 = 0b000#3 then none else some .symbolOutOfRange
  else none

/-- The decoder's check of the fields is the rule by opcode. -/
theorem defect_append (op : BitVec 4) (d : Byte) : (fieldsOf (op ++ d)).defect = reasonAt op d := by
  rw [fieldsOf_append]
  by_cases hd : d = 0x00#8 <;> by_cases hv : d.extractLsb 7 5 = 0b000#3 <;>
    simp only [Fields.defect, reasonAt, hd, hv] <;> revert op <;> decide

/-- The decoder finds a word reserved exactly with the defect of its fields (R72). -/
theorem decode_reserved_iff {w : CommandWord} {why : ReservedReason} :
    decode w = .reserved why ↔ (fieldsOf w).defect = some why := by
  rw [decode]
  cases (fieldsOf w).defect <;> simp

/-- Which opcodes and data make a reserved word (R80, R81). -/
theorem exists_reasonAt_iff {op : BitVec 4} {d : Byte} :
    (∃ why, reasonAt op d = some why) ↔
      op.getLsbD 3 = true ∨ (OperandlessOpcode op ∧ d ≠ 0x00#8) ∨ (op = 0x3#4 ∧ d.extractLsb 7 5 ≠ 0b000#3) := by
  unfold reasonAt
  split_ifs <;> simp_all

/-! ### A reserved word at a step -/

/-- No operation answers that its word is reserved: what it refuses is an unreachable state. -/
theorem exec_ne_reservedWord (i : Instr) (s : State) (w : CommandWord) (why : ReservedReason) :
    exec i s ≠ .refused (.reservedWord w why) := by
  have henc (t : State) : s.onEncodeOk t ≠ .refused (.reservedWord w why) := by
    unfold State.onEncodeOk
    split <;> simp
  have hdec (t : State) : s.onDecodeOk t ≠ .refused (.reservedWord w why) := by
    unfold State.onDecodeOk
    split <;> simp
  cases i with
  | encStart | lutS2c | decStart | lutC2s => exact nofun
  | encByte | encEnd => exact henc _
  | decChar | decEnd => exact hdec _

/-- A step refuses the word it meets as reserved exactly when it decodes to that verdict (R82). -/
theorem step_reservedWord_iff {w : CommandWord} {rest : List Event} (h : s.inputs = .command w :: rest)
    {why : ReservedReason} : step s = .refused (.reservedWord w why) ↔ decode w = .reserved why := by
  rw [step, fetch_command h]
  cases decode w with
  | legal i => simpa using exec_ne_reservedWord i _ w why
  | reserved r => simp

/-- Settles O4: a step refuses a word as reserved when its decoding does, which the opcode and the data decide. -/
theorem reservedWordsAreRefused : Obligations.ReservedWordsAreRefused := by
  unfold Obligations.ReservedWordsAreRefused
  intro s w rest h
  obtain ⟨op, d, rfl⟩ := exists_opcode_append w
  simp only [step_reservedWord_iff h, decode_reserved_iff, defect_append, rsv_append, opcode_append, data_append,
    symbolZeros_append]
  exact exists_reasonAt_iff.symm

/-! ### Tokens -/

theorem tokenWord_kind (t : Token) : t.word.extractLsb 9 8 = t.kind.bits :=
  BitVec.extractLsb'_append_eq_left

theorem tokenWord_data (t : Token) : t.word.extractLsb 7 0 = t.data :=
  BitVec.extractLsb'_append_eq_right

/-- `ENC.BYTE` completes at most two groups (R112). -/
theorem length_packByte_groups_le (carry : Byte) (c : Nat) (b : Byte) : (packByte carry c b).1.length ≤ 2 := by
  rw [packByte]
  split <;> simp

/-- `ENC.END` returns at most one group (R116). -/
theorem length_lastGroup_le (s : State) : s.lastGroup.length ≤ 1 := by
  unfold State.lastGroup
  split <;> simp

/-- `DEC.CHAR` completes at most one byte (R132). -/
theorem length_unpackSymbol_bytes_le (acc : BitVec 7) (n : Nat) (v : Symbol) : (unpackSymbol acc n v).1.length ≤ 1 := by
  rw [unpackSymbol]
  split <;> simp

/-- What R74 allows operation `i` to return on its way from `s` to `t`. -/
def ReturnsAllowed (i : Instr) (s t : State) : Prop :=
  ∃ l, t.tokens = s.tokens ++ l ∧ l.length ≤ 2 ∧ (l.length = 2 → ∃ b, i = .encByte b) ∧
    ∀ tok ∈ l, TokenAllowed i tok

theorem returnsAllowed_of_tokens_eq {i : Instr} (h : t.tokens = s.tokens) : ReturnsAllowed i s t :=
  ⟨[], by simp [h]⟩

/-- At most one token, of the kind and data of the operation, is allowed of every operation. -/
theorem returnsAllowed_of_length_le_one {i : Instr} {l : List Token} (h : t.tokens = s.tokens ++ l) (hl : l.length ≤ 1)
    (hk : ∀ tok ∈ l, TokenAllowed i tok) : ReturnsAllowed i s t :=
  ⟨l, h, by omega, by omega, hk⟩

/-- Every operation returns what R74 allows it. -/
theorem exec_returnsAllowed {i : Instr} (h : exec i s = .next t) : ReturnsAllowed i s t := by
  cases i with
  | encStart =>
    cases (exec_encStart s).symm.trans h
    exact returnsAllowed_of_tokens_eq rfl
  | encByte b =>
    obtain ⟨-, rfl⟩ := exec_encByte_next_iff.mp h
    exact ⟨_, rfl, by simpa using length_packByte_groups_le _ _ b, fun _ => ⟨b, rfl⟩, by simp [TokenAllowed]⟩
  | encEnd =>
    obtain ⟨-, rfl⟩ := exec_encEnd_next_iff.mp h
    exact returnsAllowed_of_length_le_one rfl (by simpa using length_lastGroup_le s) (by simp [TokenAllowed])
  | lutS2c v =>
    cases (exec_lutS2c v s).symm.trans h
    exact returnsAllowed_of_length_le_one rfl (by simp) (by simp [TokenAllowed])
  | decStart =>
    cases (exec_decStart s).symm.trans h
    exact returnsAllowed_of_tokens_eq rfl
  | decChar c =>
    obtain ⟨-, rfl⟩ := exec_decChar_next_iff.mp h
    split_ifs
    · exact returnsAllowed_of_tokens_eq rfl
    · exact returnsAllowed_of_length_le_one rfl (by simp) (by simp [TokenAllowed])
    · exact returnsAllowed_of_length_le_one (State.acceptSymbol_tokens s _)
        (by simpa using length_unpackSymbol_bytes_le _ _ _) (by simp [TokenAllowed])
  | decEnd =>
    obtain ⟨-, rfl⟩ := exec_decEnd_next_iff.mp h
    split_ifs <;> exact returnsAllowed_of_tokens_eq rfl
  | lutC2s b =>
    cases (exec_lutC2s b s).symm.trans h
    exact returnsAllowed_of_length_le_one rfl (by simp) (by simp [TokenAllowed])

/-- Settles O13: the two fields of a token word, the kind codes, and what each operation returns. -/
theorem tokensReturnedByEachCommand : Obligations.TokensReturnedByEachCommand := by
  unfold Obligations.TokensReturnedByEachCommand
  exact ⟨fun t => ⟨tokenWord_kind t, tokenWord_data t⟩, ⟨rfl, rfl, rfl, rfl⟩, fun i s t h => exec_returnsAllowed h⟩

/-! ### Counting words -/

/-- The numbers below `m * n` in `m` runs of `n`. -/
theorem range_mul_eq_flatMap (m n : Nat) :
    List.range (m * n) = (List.range m).flatMap fun a => (List.range n).map (a * n + ·) := by
  induction m with
  | zero => simp
  | succ m ih => rw [Nat.succ_mul, List.range_add, List.range_succ, List.flatMap_append, ih, List.flatMap_singleton]

theorem ofNat_append_ofNat {o n : Nat} (ho : o < 16) (hn : n < 256) :
    BitVec.ofNat 4 o ++ BitVec.ofNat 8 n = BitVec.ofNat 12 (o * 256 + n) := by
  apply BitVec.eq_of_toNat_eq
  rw [BitVec.toNat_append, BitVec.toNat_ofNat, BitVec.toNat_ofNat, BitVec.toNat_ofNat, Nat.mod_eq_of_lt ho,
    Nat.mod_eq_of_lt hn, ← Nat.shiftLeft_add_eq_or_of_lt hn, Nat.shiftLeft_eq, Nat.mod_eq_of_lt (by omega)]

/-- All command words, opcode by opcode. -/
theorem words_by_opcode :
    (List.range 4096).map (BitVec.ofNat 12) =
      (List.range 16).flatMap fun o => (List.range 256).map fun n => BitVec.ofNat 4 o ++ BitVec.ofNat 8 n := by
  rw [show 4096 = 16 * 256 from rfl, range_mul_eq_flatMap, List.map_flatMap]
  refine List.flatMap_congr fun o ho => ?_
  rw [List.map_map]
  exact List.map_congr_left fun n hn => (ofNat_append_ofNat (List.mem_range.mp ho) (List.mem_range.mp hn)).symm

/-- How many of the 256 words of an opcode have a verdict with property `p`. -/
def countAt (p : Option ReservedReason → Bool) (op : BitVec 4) : Nat :=
  if op.getLsbD 3 then 256 * (p (some .rsvSet)).toNat
  else if OperandlessOpcode op then (p none).toNat + 255 * (p (some .dataNotZero)).toNat
  else if op = 0x3#4 then 32 * (p none).toNat + 224 * (p (some .symbolOutOfRange)).toNat
  else 256 * (p none).toNat

theorem countP_const (x : Bool) : ((List.range 256).countP fun _ => x) = 256 * x.toNat := by
  cases x <;> simp

set_option maxRecDepth 4000 in
/-- One byte is zero, the other 255 are not. -/
theorem countP_zero_byte (x y : Bool) :
    ((List.range 256).countP fun n => if BitVec.ofNat 8 n = 0x00#8 then x else y) = x.toNat + 255 * y.toNat := by
  cases x <;> cases y <;> decide

set_option maxRecDepth 4000 in
/-- Of the bytes 32 are symbol values, the other 224 are not. -/
theorem countP_symbol_byte (x y : Bool) :
    ((List.range 256).countP fun n => if (BitVec.ofNat 8 n).extractLsb 7 5 = 0b000#3 then x else y) =
      32 * x.toNat + 224 * y.toNat := by
  cases x <;> cases y <;> decide

/-- Within an opcode only a must-be-zero field makes a difference. -/
theorem countP_reasonAt (p : Option ReservedReason → Bool) (op : BitVec 4) :
    ((List.range 256).countP fun n => p (reasonAt op (BitVec.ofNat 8 n))) = countAt p op := by
  unfold reasonAt countAt
  split_ifs
  · exact countP_const _
  · simp only [apply_ite p, countP_zero_byte]
  · simp only [apply_ite p, countP_symbol_byte]
  · exact countP_const _

/-- Words are counted by opcode. -/
theorem countP_words (p : BitVec 4 → Option ReservedReason → Bool) :
    (((List.range 4096).map (BitVec.ofNat 12)).countP fun w => p (w.extractLsb 11 8) (fieldsOf w).defect) =
      ((List.range 16).map fun o => countAt (p (BitVec.ofNat 4 o)) (BitVec.ofNat 4 o)).sum := by
  rw [words_by_opcode, List.countP_flatMap]
  congr 1
  refine List.map_congr_left fun o _ => ?_
  simp only [Function.comp_apply, List.countP_map, ← countP_reasonAt]
  refine List.countP_congr fun n _ => ?_
  rw [Function.comp_apply, opcode_append, defect_append]

/-- `decode_reserved_iff` as an equation of Booleans, as the counts are stated. -/
theorem decode_beq_reserved (w : CommandWord) (why : ReservedReason) :
    (decode w == .reserved why) = ((fieldsOf w).defect == some why) :=
  Bool.eq_iff_iff.mpr (by simpa using decode_reserved_iff)

/-- No rule makes the word reserved. -/
def isLegal (r : Option ReservedReason) : Bool :=
  !(r == some .rsvSet || r == some .dataNotZero || r == some .symbolOutOfRange)

/-- A must-be-zero field makes the word reserved (R81). -/
def breaksZeroField (r : Option ReservedReason) : Bool := r == some .dataNotZero || r == some .symbolOutOfRange

/-- The word has the opcode and its verdict the property. -/
def atOpcode (op : BitVec 4) (p : Option ReservedReason → Bool) (o : BitVec 4) (r : Option ReservedReason) : Bool :=
  o == op && p r

/-- Settles O3: each count is a sum over the 16 opcodes of the numbers of data bytes. -/
theorem legalAndReservedWordCounts : Obligations.LegalAndReservedWordCounts := by
  unfold Obligations.LegalAndReservedWordCounts
  simp only [decode_beq_reserved]
  exact ⟨(countP_words fun _ => isLegal).trans rfl, (countP_words fun _ r => !isLegal r).trans rfl,
    (countP_words (atOpcode 0x0 isLegal)).trans rfl, (countP_words (atOpcode 0x1 isLegal)).trans rfl,
    (countP_words (atOpcode 0x2 isLegal)).trans rfl, (countP_words (atOpcode 0x3 isLegal)).trans rfl,
    (countP_words (atOpcode 0x4 isLegal)).trans rfl, (countP_words (atOpcode 0x5 isLegal)).trans rfl,
    (countP_words (atOpcode 0x6 isLegal)).trans rfl, (countP_words (atOpcode 0x7 isLegal)).trans rfl,
    (countP_words fun _ r => r == some .rsvSet).trans rfl, (countP_words fun _ => breaksZeroField).trans rfl,
    (countP_words (atOpcode 0x0 breaksZeroField)).trans rfl, (countP_words (atOpcode 0x2 breaksZeroField)).trans rfl,
    (countP_words (atOpcode 0x4 breaksZeroField)).trans rfl, (countP_words (atOpcode 0x6 breaksZeroField)).trans rfl,
    (countP_words (atOpcode 0x3 breaksZeroField)).trans rfl⟩

end Sys2Proof.Machine
end

