-- ==== Sys2Proof/Proofs/Lut.lean ====
section
/-! SUPPORT. Proofs of the statements of spec/40_lut.md: the word and the token of each lookup (R100, R102), what `DEC.CHAR`
has in common with `LUT.C2S` (R103), and the laws of the two lookups (R104). Which data a lookup returns is a fact about one
table entry (`exec_lutS2c_returns_iff`, `exec_lutC2s_returns_iff`); the laws are facts about the entries. -/

namespace Sys2Proof.Machine

variable {s : State}

/-! ### The words of the lookups -/

theorem toNat_opcode_append (op : BitVec 4) (d : Byte) : (op ++ d).toNat = op.toNat * 256 + d.toNat := by
  rw [BitVec.toNat_append, ← Nat.shiftLeft_add_eq_or_of_lt d.isLt, Nat.shiftLeft_eq]

/-- Adding the data to the word of its opcode puts it in the data field: how R100 and R102 write their words. -/
theorem opcode_add_data (op : BitVec 4) (d : Byte) : (op ++ 0x00#8) + d.setWidth 12 = op ++ d := by
  apply BitVec.eq_of_toNat_eq
  rw [BitVec.toNat_add, toNat_opcode_append, toNat_opcode_append, BitVec.toNat_setWidth, BitVec.toNat_ofNat]
  omega

/-- A word that no rule makes reserved decodes to the operation of its opcode (R72, R76). -/
theorem decode_append {op : BitVec 4} {d : Byte} (h : reasonAt op d = none) :
    decode (op ++ d) =
      .legal (Fields.operation ⟨op.getLsbD 3, Side.ofBit (op.getLsbD 2), Fn.ofBits (op.extractLsb 1 0), d⟩) := by
  rw [decode, defect_append, h, fieldsOf_append]

theorem decode_lutC2s_word (b : Byte) : decode (0x700#12 + b.setWidth 12) = .legal (.lutC2s b) :=
  (congrArg decode (opcode_add_data 0x7#4 b)).trans (decode_append rfl)

/-- A symbol value, as the data of a command word, meets the constraint of R81 and is read back. -/
theorem symbol_as_data (v : Symbol) :
    (v.setWidth 8).extractLsb 7 5 = 0b000#3 ∧ (v.setWidth 8).extractLsb 4 0 = v := by
  revert v
  decide

theorem decode_lutS2c_word (v : Symbol) : decode (0x300#12 + v.setWidth 12) = .legal (.lutS2c v) := by
  obtain ⟨hzeros, hvalue⟩ := symbol_as_data v
  have hword : 0x300#12 + v.setWidth 12 = 0x3#4 ++ v.setWidth 8 := by
    rw [← opcode_add_data, BitVec.setWidth_setWidth (by decide)]
    rfl
  have hlegal : reasonAt 0x3#4 (v.setWidth 8) = none := if_pos hzeros
  rw [hword, decode_append hlegal]
  exact congrArg (fun v => Verdict.legal (.lutS2c v)) hvalue

/-! ### The data of the tokens -/

/-- The last token tells two results apart. -/
theorem State.emit_inj {k : TokenKind} {d d' : Byte} : s.emit k d = s.emit k d' ↔ d = d' := by
  simp [State.emit]

theorem exec_lutS2c_returns_iff {v : Symbol} {d : Byte} :
    exec (.lutS2c v) s = .next { s with tokens := s.tokens ++ [⟨.lut, d⟩] } ↔ alpha v = d :=
  (Host.Outcome.next.injEq ..).to_iff.trans State.emit_inj

theorem exec_lutC2s_returns_iff {b d : Byte} :
    exec (.lutC2s b) s = .next { s with tokens := s.tokens ++ [⟨.lut, d⟩] } ↔ (decTab b).setWidth 8 = d :=
  (Host.Outcome.next.injEq ..).to_iff.trans State.emit_inj

/-- The data of the token for the entry of a value (R44, R102). -/
theorem setWidth_symbolEntry (v : Symbol) : (0x20#6 + v.setWidth 6).setWidth 8 = 0x20#8 + v.setWidth 8 := by
  revert v
  decide

/-- `0x20 + v` for a valid byte of value `v` (R102). -/
theorem lookupData_of_valid {b : Byte} (h : entryValid (decTab b) = true) :
    (decTab b).setWidth 8 = 0x20#8 + (entryValue (decTab b)).setWidth 8 := by
  rw [← setWidth_symbolEntry, ← valid_entry_eq _ h]

/-- `0x00` for an invalid byte and for no other (R102). -/
theorem lookupData_eq_zero_iff {b : Byte} : (decTab b).setWidth 8 = 0x00#8 ↔ invalidSymbol b = true := by
  rw [invalidSymbol_iff]
  generalize decTab b = e
  revert e
  decide

/-! ### The lookups and `DEC.CHAR` -/

/-- Settles O22: `invalidSymbol c` decides both what `LUT.C2S c` returns and which way `DEC.CHAR c` goes (R103). -/
theorem decCharUsesTheLookup : Obligations.DecCharUsesTheLookup := by
  unfold Obligations.DecCharUsesTheLookup
  refine ⟨fun c s => ⟨_, exec_lutC2s c s⟩, fun c s hok he => ?_⟩
  simp only [exec_lutC2s_returns_iff, lookupData_eq_zero_iff]
  cases hv : invalidSymbol c with
  | true => exact ⟨_, exec_decChar_invalid hok he hv, by simp, by simp⟩
  | false =>
    obtain ⟨bytes, t, hexec, ht, hbits, -, -⟩ := exec_decChar_spec hok he hv
    have hderr : t.derr = false := by rw [ht, he]
    have htokens : t.tokens = s.tokens ++ bytes.map fun b => ⟨.byte, b⟩ := by rw [ht]
    have hvalid : entryValid (decTab c) = true := by simpa [invalidSymbol] using hv
    exact ⟨t, hexec, by simp [hderr], fun _ => ⟨_, bytes, lookupData_of_valid hvalid, htokens, hbits⟩⟩

/-! ### Each lookup alone -/

/-- Settles O19: the word by its opcode and data, the token by the operation's one outcome (R100). -/
theorem lutS2cReturnsTheCharacter : Obligations.LutS2cReturnsTheCharacter := by
  unfold Obligations.LutS2cReturnsTheCharacter
  exact fun v s => ⟨decode_lutS2c_word v, exec_lutS2c v s⟩

/-- Settles O20: the word by its opcode and data, the token by the operation's one outcome, its data by the validity of the
entry (R102). -/
theorem lutC2sReturnsTheEntry : Obligations.LutC2sReturnsTheEntry := by
  unfold Obligations.LutC2sReturnsTheEntry
  exact fun b s => ⟨decode_lutC2s_word b, exec_lutC2s b s, lookupData_of_valid,
    fun h => lookupData_eq_zero_iff.mpr (by rw [invalidSymbol, h, Bool.not_false])⟩

/-! ### The laws of the two lookups -/

/-- Digits and upper-case letters come before the lower-case ones (R104 (d)). -/
theorem alpha_le (v : Symbol) : (alpha v).toNat ≤ 0x5A := by
  by_cases h : v.toNat < 10
  · rw [alpha_of_lt_ten h, BitVec.toNat_add, BitVec.toNat_setWidth, BitVec.toNat_ofNat]
    omega
  · exact (alpha_letter (by omega)).2

/-- The look-alikes share the entry of their digit (R104 (c)). -/
theorem decTab_lookAlikes :
    decTab 0x4F#8 = decTab 0x30#8 ∧ decTab 0x49#8 = decTab 0x31#8 ∧ decTab 0x4C#8 = decTab 0x31#8 := by decide

/-- Settles O21: each law is one of the tables, since a lookup returns its entry and nothing else (R104). -/
theorem lookupLaws : Obligations.LookupLaws := by
  unfold Obligations.LookupLaws
  obtain ⟨hO, hI, hL⟩ := decTab_lookAlikes
  simp only [exec_lutS2c_returns_iff, exec_lutC2s_returns_iff]
  refine ⟨?inverse, ?lowerCase, fun _ _ => by rw [hO], fun _ _ => by rw [hI, hL, and_self], ?excluded, ?injective⟩
  case inverse =>
    rintro v - - - rfl
    rw [decTab_alpha, setWidth_symbolEntry]
  case lowerCase =>
    intro b d _ h₁ h₂
    rw [decTab_lowerCase h₁ h₂]
  case excluded =>
    rintro v - - rfl
    obtain ⟨hneI, hneL, hneO, hneU⟩ := alpha_ne_excluded v
    have hle := alpha_le v
    exact ⟨hneI, hneL, hneO, hneU, by omega⟩
  case injective =>
    rintro v w - - d hv hw
    exact alpha_injective (hv.trans hw.symm)

end Sys2Proof.Machine
end

