-- ==== Sys2Proof/Proofs/Encode.lean ====
section
/-! SUPPORT. Proofs of the statements of spec/41_encode.md. The encode registers are determined by the abstract carry
(`sameEncode_of_carryBits_eq`), and the symbols and the carry of an operation by the bits it conserves
(`exec_encByte_eq_of_bits`, `exec_encEnd_eq_of_bits`), so what an operation does is read off an equation of bit strings. -/

namespace Sys2Proof.Machine

variable {s t : State}

/-! ### The registers and the abstract carry -/

/-- The zero fill of R21 in numbers. -/
theorem State.encodeOk_iff_mod :
    s.EncodeOk ↔ s.ecnt.toNat ≤ 4 ∧ s.ecarry.toNat % 2 ^ (8 - s.ecnt.toNat) = 0 :=
  and_congr_right fun h => shiftLeft_eq_zero_iff_mod _ (by omega)

theorem bitsOf_zero (n : Nat) : bitsOf (0#n) = List.replicate n false := by
  apply List.ext_getElem <;> simp

/-- `ECARRY` is the abstract carry, zero-filled (R21, R23). -/
theorem bitsOf_ecarry (h : s.EncodeOk) :
    bitsOf s.ecarry = s.carryBits ++ List.replicate (8 - s.ecnt.toNat) false := by
  rw [← (shiftLeft_eq_zero_iff _).mp h.2, State.carryBits, List.take_append_drop]

theorem length_carryBits_lt (h : s.EncodeOk) : s.carryBits.length < 5 := by
  rw [length_carryBits h]
  exact Nat.lt_succ_of_le h.1

/-- The abstract carry determines both encode registers (R23). -/
theorem sameEncode_of_carryBits_eq (hs : s.EncodeOk) (ht : t.EncodeOk) (h : s.carryBits = t.carryBits) :
    SameEncode s t := by
  have hn : t.ecnt.toNat = s.ecnt.toNat := by rw [← length_carryBits ht, ← h, length_carryBits hs]
  refine ⟨bitsOf_injective ?_, BitVec.eq_of_toNat_eq hn⟩
  rw [bitsOf_ecarry ht, bitsOf_ecarry hs, h, hn]

/-- Registers that hold a string of fewer than 5 bits, zero-filled, are a reachable pair with that abstract carry. -/
theorem encodeOk_and_carryBits_of_bits {r : List Bool} (hr : r.length < 5) (hn : s.ecnt.toNat = r.length)
    (hc : bitsOf s.ecarry = r ++ List.replicate (8 - r.length) false) : s.EncodeOk ∧ s.carryBits = r := by
  refine ⟨⟨by omega, (shiftLeft_eq_zero_iff _).mpr ?_⟩, ?_⟩
  · rw [hc, hn, List.drop_left]
  · rw [State.carryBits, hc, hn, List.take_left]

/-! ### `ENC.BYTE` by the bits it conserves -/

/-- `ENC.BYTE` completes the symbols whose bits are the carry and the first `m` of the byte, and keeps the others: what it does
is determined by where the byte is cut (R113). -/
theorem exec_encByte_eq_of_bits {b : Byte} {vs : List Symbol} {carry : Byte} {n : BitVec 3} {m : Nat} (h : s.EncodeOk)
    (hm : n.toNat + m = 8) (hn : n.toNat < 5) (hvs : streamOf vs = s.carryBits ++ (bitsOf b).take m)
    (hcarry : bitsOf carry = (bitsOf b).drop m ++ List.replicate m false) :
    exec (.encByte b) s =
      .next { s with ecarry := carry, ecnt := n, tokens := s.tokens ++ vs.map fun v => ⟨.char, alpha v⟩ } := by
  have hr : ((bitsOf b).drop m).length = n.toNat := by
    rw [List.length_drop, length_bitsOf]
    omega
  obtain ⟨hok, hkept⟩ := encodeOk_and_carryBits_of_bits (s := { s with ecarry := carry, ecnt := n })
    (r := (bitsOf b).drop m) (by omega) hr.symm (by rw [hcarry, hr, show 8 - n.toNat = m by omega])
  obtain ⟨ws, t, ht, hframe, hbits, hok', -⟩ := exec_encByte_spec h b
  have hcut : streamOf vs ++ (bitsOf b).drop m = streamOf ws ++ t.carryBits := by
    rw [← hbits, hvs, List.append_assoc, List.take_append_drop]
  obtain rfl : vs = ws := by
    rw [← cut_streamOf_append vs (hr.trans_lt hn), hcut, cut_streamOf_append ws (length_carryBits_lt hok')]
  obtain ⟨hecarry, hecnt⟩ := sameEncode_of_carryBits_eq hok hok' (hkept.trans (List.append_cancel_left hcut))
  rw [ht, hframe, hecarry, hecnt]

/-- What `ENC.BYTE` leaves as the carry: as many bits as R24 says, the last of the byte (R114). -/
theorem exec_encByte_carry {b : Byte} (h : exec (.encByte b) s = .next t) :
    t.EncodeOk ∧ t.ecnt.toNat = (s.ecnt.toNat + 3) % 5 ∧ t.carryBits <:+ bitsOf b := by
  obtain ⟨vs, u, hu, -, hbits, hok, hn⟩ := exec_encByte_spec (exec_encByte_next_iff.mp h).1 b
  cases hu.symm.trans h
  refine ⟨hok, hn, List.suffix_of_suffix_length_le ⟨_, hbits.symm⟩ (List.suffix_append _ _) ?_⟩
  have := hok.1
  rw [length_carryBits hok, length_bitsOf]
  omega

/-- Settles O26: two carries that are the last bits of one byte, and of one length, are equal (R114). -/
theorem carryComesFromTheLastByte : Obligations.CarryComesFromTheLastByte := by
  unfold Obligations.CarryComesFromTheLastByte
  intro b s s' t t' h h' hcnt
  obtain ⟨hok, hn, hsuffix⟩ := exec_encByte_carry h
  obtain ⟨hok', hn', hsuffix'⟩ := exec_encByte_carry h'
  have hlen : t.carryBits.length = t'.carryBits.length := by
    rw [length_carryBits hok, length_carryBits hok', hn, hn', hcnt]
  have hcarry : t.carryBits = t'.carryBits :=
    (List.suffix_of_suffix_length_le hsuffix hsuffix' hlen.le).eq_of_length hlen
  exact ⟨sameEncode_of_carryBits_eq hok hok' hcarry, hsuffix⟩

/-! ### The rows of the table -/

/-- A slice is a run of the bits. -/
theorem bitsOf_extractLsb {n hi lo : Nat} (v : BitVec n) (h : hi < n) (hl : lo ≤ hi) :
    bitsOf (v.extractLsb hi lo) = ((bitsOf v).drop (n - 1 - hi)).take (hi - lo + 1) := by
  apply List.ext_getElem
  · simp
    omega
  · intro i h₁ h₂
    have hi' : i < hi - lo + 1 := by simpa using h₁
    have hx : n - 1 - (hi - i) = n - 1 - hi + i := by omega
    simp [BitVec.getMsbD_extractLsb, Nat.max_eq_left hl, hi', hx]
    omega

/-- The first symbol of a row: all of the carry, then the top of the byte. -/
theorem bitsOf_carry_append {lo lo' : Nat} (b : Byte) (hn : s.ecnt = BitVec.ofNat 3 (7 - lo + 1)) (h₀ : 0 < lo)
    (h : lo ≤ 7) (h' : lo' ≤ 7) :
    bitsOf (s.ecarry.extractLsb 7 lo ++ b.extractLsb 7 lo') = s.carryBits ++ (bitsOf b).take (7 - lo' + 1) := by
  have hcnt : s.ecnt.toNat = 7 - lo + 1 := by
    rw [hn, BitVec.toNat_ofNat]
    omega
  rw [bitsOf_append, bitsOf_extractLsb _ (by decide) h, bitsOf_extractLsb _ (by decide) h', State.carryBits, hcnt]
  rfl

theorem streamOf_singleton {n : Nat} (v : BitVec n) : streamOf [v] = bitsOf v := by simp

/-- Two symbols in a row hold the carry and the first `a + 5` bits of the byte. -/
theorem streamOf_pair_of_bits {b : Byte} {v w : Symbol} {a : Nat} (hv : bitsOf v = s.carryBits ++ (bitsOf b).take a)
    (hw : bitsOf w = ((bitsOf b).drop a).take 5) : streamOf [v, w] = s.carryBits ++ (bitsOf b).take (a + 5) := by
  simp [hv, hw, List.take_add]

/-- The new carry of a row: the low-order end of the byte, zero-filled. -/
theorem bitsOf_low_append_zero (b : Byte) {hi : Nat} (h : hi < 8) (z : Nat) :
    bitsOf (b.extractLsb hi 0 ++ 0#z) = (bitsOf b).drop (7 - hi) ++ List.replicate z false := by
  rw [bitsOf_append, bitsOf_extractLsb b h (Nat.zero_le _), bitsOf_zero, List.take_of_length_le]
  simp
  omega

/-- Settles O25: in each row the carry bits of R113's table and the byte's are those of its symbols and its new carry; on
the abstract carry it is the conservation of bits. -/
theorem encByteCaseByCase : Obligations.EncByteCaseByCase := by
  unfold Obligations.EncByteCaseByCase
  intro b s h
  refine ⟨fun hc => ?zero, fun hc => ?one, fun hc => ?two, fun hc => ?three, fun hc => ?four, ?abstract⟩
  case zero =>
    refine exec_encByte_eq_of_bits (m := 5) h rfl (by decide) ?_ (bitsOf_low_append_zero b (by decide) 5)
    rw [streamOf_singleton, carryBits_clear hc]
    exact bitsOf_extractLsb b (by decide) (by decide)
  case one =>
    exact exec_encByte_eq_of_bits (m := 4) h rfl (by decide)
      ((streamOf_singleton _).trans (bitsOf_carry_append b hc (by decide) (by decide) (by decide)))
      (bitsOf_low_append_zero b (by decide) 4)
  case two =>
    exact exec_encByte_eq_of_bits (m := 3 + 5) h rfl (by decide)
      (streamOf_pair_of_bits (bitsOf_carry_append b hc (by decide) (by decide) (by decide))
        (bitsOf_extractLsb b (by decide) (by decide)))
      (by simp [bitsOf_zero])
  case three =>
    exact exec_encByte_eq_of_bits (m := 2 + 5) h rfl (by decide)
      (streamOf_pair_of_bits (bitsOf_carry_append b hc (by decide) (by decide) (by decide))
        (bitsOf_extractLsb b (by decide) (by decide)))
      (bitsOf_low_append_zero b (by decide) 7)
  case four =>
    exact exec_encByte_eq_of_bits (m := 1 + 5) h rfl (by decide)
      (streamOf_pair_of_bits (bitsOf_carry_append b hc (by decide) (by decide) (by decide))
        (bitsOf_extractLsb b (by decide) (by decide)))
      (bitsOf_low_append_zero b (by decide) 6)
  case abstract =>
    obtain ⟨syms, t, ht, hframe, hbits, hok, -⟩ := exec_encByte_spec h b
    exact ⟨syms, t, ht, by rw [hframe], hbits, length_carryBits_lt hok⟩

/-! ### `ENC.BYTE` in natural numbers -/

theorem decode_encByte_word (b : Byte) : decode (0x100#12 + b.setWidth 12) = .legal (.encByte b) :=
  (congrArg decode (opcode_add_data 0x1#4 b)).trans (decode_append rfl)

/-- The window is wide enough for the shifts of R112 to lose nothing. -/
theorem toNat_encWindow (carry : Byte) (c : Nat) (b : Byte) :
    (encWindow carry c b).toNat = (carry.toNat <<< 4) ||| (b.toNat <<< (4 - c)) := by
  have hcarry : carry.toNat <<< 4 < 2 ^ 12 := Nat.shiftLeft_lt carry.isLt
  have hbyte : b.toNat <<< (4 - c) < 2 ^ 12 :=
    (Nat.shiftLeft_lt b.isLt).trans_le (Nat.pow_le_pow_right (by omega) (by omega))
  rw [encWindow, BitVec.toNat_or, BitVec.toNat_shiftLeft, BitVec.toNat_shiftLeft, BitVec.toNat_setWidth_of_le (by decide),
    BitVec.toNat_setWidth_of_le (by decide), Nat.mod_eq_of_lt hcarry, Nat.mod_eq_of_lt hbyte]

theorem topSymbol_eq_ofNat (w : Window) : topSymbol w = BitVec.ofNat 5 (w.toNat / 128) :=
  congrArg (BitVec.ofNat 5) (Nat.shiftRight_eq_div_pow w.toNat 7)

theorem topByte_eq_ofNat (w : Window) : topByte w = BitVec.ofNat 8 (w.toNat / 16) :=
  congrArg (BitVec.ofNat 8) (Nat.shiftRight_eq_div_pow w.toNat 4)

theorem toNat_dropSymbol (w : Window) : (dropSymbol w).toNat = (w.toNat <<< 5) % 4096 := BitVec.toNat_shiftLeft

/-- Fewer than 2 carry bits and a byte hold one group (R112). -/
theorem packByte_one_group {carry : Byte} {c : Nat} {b : Byte} (h : c + 8 - 5 < 5) :
    packByte carry c b =
      ([topSymbol (encWindow carry c b)], topByte (dropSymbol (encWindow carry c b)), c + 8 - 5) :=
  if_neg h.not_ge

/-- 2 carry bits or more and a byte hold two groups (R112). -/
theorem packByte_two_groups {carry : Byte} {c : Nat} {b : Byte} (h : ¬c + 8 - 5 < 5) :
    packByte carry c b =
      ([topSymbol (encWindow carry c b), topSymbol (dropSymbol (encWindow carry c b))],
        topByte (dropSymbol (dropSymbol (encWindow carry c b))), c + 8 - 10) :=
  if_pos (not_lt.mp h)

/-- Settles O24: the slices and shifts of the data path are R112's divisions and remainders, in each of its two cases. -/
theorem encByteFollowsItsPseudocode : Obligations.EncByteFollowsItsPseudocode := by
  unfold Obligations.EncByteFollowsItsPseudocode
  refine ⟨decode_encByte_word, fun b s hc hz => exec_encByte_next_iff.mpr ⟨State.encodeOk_iff_mod.mpr ⟨hc, hz⟩, ?_⟩⟩
  simp only [← toNat_encWindow, ← toNat_dropSymbol, ← topSymbol_eq_ofNat, ← topByte_eq_ofNat]
  split_ifs with h
  · rw [packByte_one_group h]
    rfl
  · rw [packByte_two_groups h]
    rfl

/-! ### `ENC.START` and `ENC.END` alone -/

/-- Settles O23: the outcome of `ENC.START` is stated of every state (R110). -/
theorem encStartClearsTheCarry : Obligations.EncStartClearsTheCarry := by
  unfold Obligations.EncStartClearsTheCarry
  exact ⟨rfl, exec_encStart⟩

theorem finalSymbol_eq_ofNat (carry : Byte) : finalSymbol carry = BitVec.ofNat 5 (carry.toNat / 8) :=
  congrArg (BitVec.ofNat 5) (Nat.shiftRight_eq_div_pow carry.toNat 3)

/-- Settles O27: the last group is `ECARRY[7:3]` or none, by `ECNT` (R116). -/
theorem encEndFlushesTheCarry : Obligations.EncEndFlushesTheCarry := by
  unfold Obligations.EncEndFlushesTheCarry
  refine ⟨rfl, fun s hc hz => exec_encEnd_next_iff.mpr ⟨State.encodeOk_iff_mod.mpr ⟨hc, hz⟩, ?_⟩⟩
  rw [State.lastGroup, finalSymbol_eq_ofNat]
  split_ifs <;> rfl

/-! ### Whole messages -/

/-- The bits of a message that are in no complete symbol are the carry, so its length tells both (R24, R119). -/
theorem lengths_of_encodeBody {bs : List Byte} {vs : List Symbol} (h : streamOf bs = streamOf vs ++ t.carryBits)
    (hok : t.EncodeOk) : vs.length = 8 * bs.length / 5 ∧ t.ecnt.toNat = 8 * bs.length % 5 := by
  have hlen := congrArg List.length h
  rw [List.length_append, length_streamOf, length_streamOf, length_carryBits hok] at hlen
  have := hok.1
  omega

/-- Settles O29: the symbols of the body are the whole groups of the message's bits, and the one of `ENC.END` has the
remaining bits, if any (R119). -/
theorem encodeTokenCount : Obligations.EncodeTokenCount := by
  unfold Obligations.EncodeTokenCount
  intro s bs
  obtain ⟨vs, t, ht, hframe, hbits, hok⟩ := perform_encodeBody s bs
  obtain ⟨ws, hend, hlast⟩ := exec_encEnd_spec hok
  obtain ⟨hvs, hcnt⟩ := lengths_of_encodeBody hbits hok
  have hws : 5 * ws.length = t.ecnt.toNat + (5 - t.ecnt.toNat) % 5 := by
    simpa [length_carryBits hok] using congrArg List.length hlast
  have hlen : ws.length = if 8 * bs.length % 5 = 0 then 0 else 1 := by
    split_ifs <;> omega
  refine ⟨t, _, vs.map alpha, ws.map alpha, ht, hend, ?_, ?_, ?_, ?_, ?_⟩
  · rw [hframe, List.map_map]
    rfl
  · rw [List.map_map]
    rfl
  · rw [List.length_map, hvs]
  · rw [List.length_map, hlen]
  · rw [List.length_map, List.length_map, hvs, hlen]
    split_ifs <;> omega

/-- What `ENC.END` does is determined by the zero-padded carry (R116). -/
theorem exec_encEnd_eq_of_bits {vs : List Symbol} (h : s.EncodeOk)
    (hvs : streamOf vs = s.carryBits ++ List.replicate ((5 - s.ecnt.toNat) % 5) false) :
    exec .encEnd s = .next
      { s with ecarry := 0x00#8, ecnt := 0#3, tokens := s.tokens ++ vs.map fun v => ⟨.char, alpha v⟩ } := by
  obtain ⟨ws, hend, hws⟩ := exec_encEnd_spec h
  rw [hend, streamOf_injective (by decide) (hvs.trans hws.symm)]

/-- The body of a message that ends in `B` leaves a carry that is the end of `B`, of a length told by that of the message
(R114, R117). -/
theorem perform_encodeBody_concat (s : State) (bs : List Byte) (B : Byte) :
    ∃ t, perform (.encStart :: (bs ++ [B]).map .encByte) s = .next t ∧ t.EncodeOk ∧
      t.ecnt.toNat = 3 * (bs ++ [B]).length % 5 ∧ t.carryBits = (bitsOf B).drop (8 - t.ecnt.toNat) := by
  obtain ⟨vs, t, ht, -, hbits, hok⟩ := perform_encodeBody s (bs ++ [B])
  obtain ⟨-, hcnt⟩ := lengths_of_encodeBody hbits hok
  refine ⟨t, ht, hok, by omega, ?_⟩
  rw [streamOf_append, streamOf_singleton] at hbits
  have hshort := length_carryBits_lt hok
  rw [eq_drop_of_append_eq hbits (by rw [length_bitsOf]; omega), length_bitsOf, length_carryBits hok]

/-- The final symbol of a message that ends in `B`: the last `n` bits of `B`, zero-padded (R117). -/
theorem exec_encEnd_of_last_byte {B : Byte} {v : Symbol} {n : Nat} (h : s.EncodeOk)
    (hcarry : s.carryBits = (bitsOf B).drop (8 - s.ecnt.toNat)) (hn : s.ecnt.toNat = n) (h0 : 0 < n)
    (hv : bitsOf v = (bitsOf B).drop (8 - n) ++ List.replicate (5 - n) false) :
    exec .encEnd s =
      .next { s with ecarry := 0x00#8, ecnt := 0#3, tokens := s.tokens ++ [⟨.char, alpha v⟩] } := by
  refine exec_encEnd_eq_of_bits (vs := [v]) h ?_
  rw [streamOf_singleton, hv, hcarry, hn, Nat.mod_eq_of_lt (by omega)]

/-- Settles O28: the length of the message tells how many bits of its last byte are left, and those, zero-padded, are the
final symbol (R117). -/
theorem finalSymbolByMessageLength : Obligations.FinalSymbolByMessageLength := by
  unfold Obligations.FinalSymbolByMessageLength
  intro s bs B n
  obtain ⟨t, ht, hok, hcnt, hcarry⟩ := perform_encodeBody_concat s bs B
  change t.ecnt.toNat = 3 * n % 5 at hcnt
  refine ⟨t, ht, hcnt, ?_⟩
  split_ifs with h0 h1 h2 h3
  · have hzero : t.ecnt.toNat = 0 := by omega
    exact exec_encEnd_eq_of_bits (vs := []) hok (by simp [hcarry, hzero])
  · exact exec_encEnd_of_last_byte (n := 3) hok hcarry (by omega) (by decide) (bitsOf_low_append_zero B (by decide) 2)
  · exact exec_encEnd_of_last_byte (n := 1) hok hcarry (by omega) (by decide) (bitsOf_low_append_zero B (by decide) 4)
  · exact exec_encEnd_of_last_byte (n := 4) hok hcarry (by omega) (by decide) (bitsOf_low_append_zero B (by decide) 1)
  · exact exec_encEnd_of_last_byte (n := 2) hok hcarry (by omega) (by decide) (bitsOf_low_append_zero B (by decide) 3)

end Sys2Proof.Machine
end

