-- ==== Sys2Proof/Proofs/Decode.lean ====
section
/-! SUPPORT. Proofs of the statements of spec/42_decode.md. `DACC` and `DCNT` are determined by the abstract accumulator
(`buffer_eq_of_bufferBits_eq`), and the byte and the accumulator that `DEC.CHAR` leaves by the bits it conserves
(`exec_decChar_eq_of_bits`), so the rows of R134 are equations of bit strings; the token counts and the leftover are lengths
of such equations. -/

namespace Sys2Proof.Machine

variable {s t : State}

/-! ### The registers and the abstract accumulator -/

/-- The zero fill of R25 in numbers. -/
theorem State.decodeOk_iff_mod :
    s.DecodeOk ↔ s.dacc.toNat % 2 ^ (7 - s.dcnt.toNat) = 0 ∧ (s.derr = false → s.derrb = 0x00#8) :=
  and_congr_left' (shiftLeft_eq_zero_iff_mod _ (Nat.le_of_lt_succ s.dcnt.isLt))

/-- `DACC` is the abstract accumulator, zero-filled (R25, R26). -/
theorem bitsOf_dacc (h : s.DecodeOk) :
    bitsOf s.dacc = s.bufferBits ++ List.replicate (7 - s.dcnt.toNat) false := by
  rw [← (shiftLeft_eq_zero_iff _).mp h.1, State.bufferBits, List.take_append_drop]

theorem length_bufferBits_lt (s : State) : s.bufferBits.length < 8 := by
  rw [length_bufferBits]
  exact s.dcnt.isLt

/-- The abstract accumulator determines `DACC` and `DCNT` (R26). -/
theorem buffer_eq_of_bufferBits_eq (hs : s.DecodeOk) (ht : t.DecodeOk) (h : s.bufferBits = t.bufferBits) :
    t.dacc = s.dacc ∧ t.dcnt = s.dcnt := by
  have hn : t.dcnt.toNat = s.dcnt.toNat := by rw [← length_bufferBits t, ← h, length_bufferBits]
  refine ⟨bitsOf_injective ?_, BitVec.eq_of_toNat_eq hn⟩
  rw [bitsOf_dacc ht, bitsOf_dacc hs, h, hn]

/-- An error-free unit that holds a bit string, zero-filled, is reachable and has it as its abstract accumulator. -/
theorem decodeOk_and_bufferBits_of_bits {r : List Bool} (he : s.derrb = 0x00#8) (hn : s.dcnt.toNat = r.length)
    (hacc : bitsOf s.dacc = r ++ List.replicate (7 - r.length) false) : s.DecodeOk ∧ s.bufferBits = r := by
  refine ⟨⟨(shiftLeft_eq_zero_iff _).mpr ?_, fun _ => he⟩, ?_⟩
  · rw [hacc, hn, List.drop_left]
  · rw [State.bufferBits, hacc, hn, List.take_left]

/-! ### The error flag -/

theorem invalidSymbol_eq_true_iff {c : Byte} : invalidSymbol c = true ↔ entryValid (decTab c) = false := by
  simp [invalidSymbol]

theorem invalidSymbol_eq_false_iff {c : Byte} : invalidSymbol c = false ↔ entryValid (decTab c) = true := by
  simp [invalidSymbol]

/-- Settles O33: with `DERR = 1` the first check of `DEC.CHAR` ends it (R133). -/
theorem decCharIgnoredAfterError : Obligations.DecCharIgnoredAfterError := by
  unfold Obligations.DecCharIgnoredAfterError
  exact fun c s h he => exec_decChar_failed h he c

/-- `DEC.END` with `DERR = 0` (R136). -/
theorem exec_decEnd_running (h : s.DecodeOk) (he : s.derr = false) : exec .decEnd s = .next s.clearBuffer :=
  exec_decEnd_next_iff.mpr ⟨h, by simp [he]⟩

/-- `DEC.END` with `DERR = 1` (R137). -/
theorem exec_decEnd_failed (h : s.DecodeOk) (he : s.derr = true) : exec .decEnd s = .next s :=
  exec_decEnd_next_iff.mpr ⟨h, by simp [he]⟩

/-- Settles O34: the flag alone decides what `DEC.END` does (R136, R137). -/
theorem decEndDiscardsTheLeftover : Obligations.DecEndDiscardsTheLeftover := by
  unfold Obligations.DecEndDiscardsTheLeftover
  exact ⟨rfl, fun s h => ⟨exec_decEnd_running h, exec_decEnd_failed h⟩⟩

/-- Settles O30: the outcome of `DEC.START` is stated of every state (R130). -/
theorem decStartClearsTheUnit : Obligations.DecStartClearsTheUnit := by
  unfold Obligations.DecStartClearsTheUnit
  exact ⟨rfl, exec_decStart⟩

/-! ### `DEC.CHAR` by the bits it conserves -/

/-- What `DEC.CHAR` does with a valid character is determined by how the held bits and the symbol's are split into a byte, if
any, and the bits still held (R134). -/
theorem exec_decChar_eq_of_bits {c : Byte} {bytes : List Byte} {acc : BitVec 7} {n : BitVec 3} {r : List Bool}
    (h : s.DecodeOk) (he : s.derr = false) (hv : invalidSymbol c = false) (hn : n.toNat = r.length)
    (hsplit : streamOf bytes ++ r = s.bufferBits ++ bitsOf (entryValue (decTab c)))
    (hacc : bitsOf acc = r ++ List.replicate (7 - r.length) false) :
    exec (.decChar c) s =
      .next { s with dacc := acc, dcnt := n, tokens := s.tokens ++ bytes.map fun b => ⟨.byte, b⟩ } := by
  obtain ⟨hok, hheld⟩ := decodeOk_and_bufferBits_of_bits (s := { s with dacc := acc, dcnt := n }) (h.2 he) hn hacc
  obtain ⟨ds, t, ht, hframe, hbits, hok', -⟩ := exec_decChar_spec h he hv
  have hcut : streamOf bytes ++ r = streamOf ds ++ t.bufferBits := hsplit.trans hbits
  obtain rfl : bytes = ds := by
    rw [← cut_streamOf_append bytes (hn.symm.trans_lt n.isLt), hcut, cut_streamOf_append ds (length_bufferBits_lt t)]
  obtain ⟨hdacc, hdcnt⟩ := buffer_eq_of_bufferBits_eq hok hok' (hheld.trans (List.append_cancel_left hcut))
  rw [ht, hframe, hdacc, hdcnt]

/-- With fewer than 3 bits held, `DEC.CHAR` puts the symbol's after them. -/
theorem exec_decChar_eq_of_held {c : Byte} {acc : BitVec 7} {n : BitVec 3} (h : s.DecodeOk) (he : s.derr = false)
    (hv : invalidSymbol c = false) (hn : n.toNat = s.dcnt.toNat + 5)
    (hacc : bitsOf acc =
      s.bufferBits ++ bitsOf (entryValue (decTab c)) ++ List.replicate (7 - n.toNat) false) :
    exec (.decChar c) s = .next { s with dacc := acc, dcnt := n, tokens := s.tokens ++ [] } := by
  have hr : n.toNat = (s.bufferBits ++ bitsOf (entryValue (decTab c))).length := by
    rw [List.length_append, length_bufferBits, length_bitsOf, hn]
  exact exec_decChar_eq_of_bits (bytes := []) h he hv hr rfl (hr ▸ hacc)

/-- With 3 bits held or more, `DEC.CHAR` completes a byte with the first `m` bits of the symbol and holds the others. -/
theorem exec_decChar_eq_of_completed {c : Byte} {b : Byte} {acc : BitVec 7} {n : BitVec 3} {m : Nat} (h : s.DecodeOk)
    (he : s.derr = false) (hv : invalidSymbol c = false) (hn : n.toNat + m = 5)
    (hb : bitsOf b = s.bufferBits ++ (bitsOf (entryValue (decTab c))).take m)
    (hacc : bitsOf acc = (bitsOf (entryValue (decTab c))).drop m ++ List.replicate (m + 2) false) :
    exec (.decChar c) s = .next { s with dacc := acc, dcnt := n, tokens := s.tokens ++ [⟨.byte, b⟩] } := by
  have hr : ((bitsOf (entryValue (decTab c))).drop m).length = n.toNat := by
    rw [List.length_drop, length_bitsOf]
    omega
  refine exec_decChar_eq_of_bits (bytes := [b]) h he hv hr.symm ?_ ?_
  · rw [streamOf_singleton, hb, List.append_assoc, List.take_append_drop]
  · rw [hacc, hr, show 7 - n.toNat = m + 2 by omega]

/-! ### The rows of the table -/

/-- The slice of `DACC` that a row names is all of the abstract accumulator. -/
theorem bitsOf_held {lo : Nat} (hn : s.dcnt = BitVec.ofNat 3 (6 - lo + 1)) (h : lo ≤ 6) :
    bitsOf (s.dacc.extractLsb 6 lo) = s.bufferBits := by
  have hcnt : s.dcnt.toNat = 6 - lo + 1 := by
    rw [hn, BitVec.toNat_ofNat]
    omega
  rw [bitsOf_extractLsb _ (by decide) h, State.bufferBits, hcnt]
  rfl

/-- The byte of a row: the held bits, then the top of the symbol. -/
theorem bitsOf_held_append_top {lo lo' : Nat} (v : Symbol) (hn : s.dcnt = BitVec.ofNat 3 (6 - lo + 1)) (h : lo ≤ 6)
    (h' : lo' ≤ 4) :
    bitsOf (s.dacc.extractLsb 6 lo ++ v.extractLsb 4 lo') = s.bufferBits ++ (bitsOf v).take (4 - lo' + 1) := by
  rw [bitsOf_append, bitsOf_held hn h, bitsOf_extractLsb v (by decide) h']
  rfl

/-- The new accumulator of a row: the low-order end of the symbol, zero-filled. -/
theorem bitsOf_symbol_low_append_zero (v : Symbol) {hi : Nat} (h : hi < 5) (z : Nat) :
    bitsOf (v.extractLsb hi 0 ++ 0#z) = (bitsOf v).drop (4 - hi) ++ List.replicate z false := by
  rw [bitsOf_append, bitsOf_extractLsb v h (Nat.zero_le _), bitsOf_zero, List.take_of_length_le]
  simp
  omega

/-- Settles O32: in each row the held bits and the symbol's are those of the row's byte and of its new accumulator; on the
abstract accumulator it is the conservation of bits (R134). -/
theorem decCharCaseByCase : Obligations.DecCharCaseByCase := by
  unfold Obligations.DecCharCaseByCase
  intro c s h he hvalid
  have hv := invalidSymbol_eq_false_iff.mpr hvalid
  refine ⟨fun hc => ?zero, fun hc => ?one, fun hc => ?two, fun hc => ?three, fun hc => ?four, fun hc => ?five,
    fun hc => ?six, fun hc => ?seven, ?abstract⟩
  case zero =>
    refine exec_decChar_eq_of_held h he hv (by simp [hc]) ?_
    rw [bitsOf_append, bitsOf_zero, bufferBits_clear hc]
    rfl
  case one =>
    refine exec_decChar_eq_of_held h he hv (by simp [hc]) ?_
    rw [bitsOf_append, bitsOf_append, bitsOf_held hc (by decide), bitsOf_zero]
    rfl
  case two =>
    refine exec_decChar_eq_of_held h he hv (by simp [hc]) ?_
    rw [bitsOf_append, bitsOf_held hc (by decide)]
    exact (List.append_nil _).symm
  case three =>
    refine exec_decChar_eq_of_completed (m := 5) h he hv rfl ?_ (by simp [bitsOf_zero])
    rw [bitsOf_append, bitsOf_held hc (by decide), List.take_of_length_le (by simp)]
  case four =>
    exact exec_decChar_eq_of_completed (m := 4) h he hv rfl (bitsOf_held_append_top _ hc (by decide) (by decide))
      (bitsOf_symbol_low_append_zero _ (by decide) 6)
  case five =>
    exact exec_decChar_eq_of_completed (m := 3) h he hv rfl (bitsOf_held_append_top _ hc (by decide) (by decide))
      (bitsOf_symbol_low_append_zero _ (by decide) 5)
  case six =>
    exact exec_decChar_eq_of_completed (m := 2) h he hv rfl (bitsOf_held_append_top _ hc (by decide) (by decide))
      (bitsOf_symbol_low_append_zero _ (by decide) 4)
  case seven =>
    exact exec_decChar_eq_of_completed (m := 1) h he hv rfl (bitsOf_held_append_top _ hc (by decide) (by decide))
      (bitsOf_symbol_low_append_zero _ (by decide) 3)
  case abstract =>
    obtain ⟨bytes, t, ht, hframe, hbits, -, -⟩ := exec_decChar_spec h he hv
    exact ⟨bytes, t, ht, by rw [hframe], hbits, length_bufferBits_lt t⟩

/-! ### `DEC.CHAR` in natural numbers -/

theorem decode_decChar_word (c : Byte) : decode (0x500#12 + c.setWidth 12) = .legal (.decChar c) :=
  (congrArg decode (opcode_add_data 0x5#4 c)).trans (decode_append rfl)

/-- The window is wide enough for the shifts of R132 to lose nothing. -/
theorem toNat_decWindow (acc : BitVec 7) (n : Nat) (v : Symbol) :
    (decWindow acc n v).toNat = (acc.toNat <<< 5) ||| (v.toNat <<< (7 - n)) := by
  have hacc : acc.toNat <<< 5 < 2 ^ 12 := Nat.shiftLeft_lt acc.isLt
  have hsymbol : v.toNat <<< (7 - n) < 2 ^ 12 :=
    (Nat.shiftLeft_lt v.isLt).trans_le (Nat.pow_le_pow_right (by omega) (by omega))
  rw [decWindow, BitVec.toNat_or, BitVec.toNat_shiftLeft, BitVec.toNat_shiftLeft, BitVec.toNat_setWidth_of_le (by decide),
    BitVec.toNat_setWidth_of_le (by decide), Nat.mod_eq_of_lt hacc, Nat.mod_eq_of_lt hsymbol]

theorem topBuffer_eq_ofNat (w : Window) : topBuffer w = BitVec.ofNat 7 (w.toNat / 32) :=
  congrArg (BitVec.ofNat 7) (Nat.shiftRight_eq_div_pow w.toNat 5)

theorem toNat_dropByte (w : Window) : (dropByte w).toNat = (w.toNat <<< 8) % 4096 := BitVec.toNat_shiftLeft

/-- 3 held bits or more and a symbol hold a byte (R132). -/
theorem unpackSymbol_of_le {acc : BitVec 7} {n : Nat} {v : Symbol} (h : n + 5 ≥ 8) :
    unpackSymbol acc n v = ([topByte (decWindow acc n v)], topBuffer (dropByte (decWindow acc n v)), n + 5 - 8) :=
  if_pos h

/-- Fewer than 3 held bits and a symbol do not (R132). -/
theorem unpackSymbol_of_lt {acc : BitVec 7} {n : Nat} {v : Symbol} (h : ¬n + 5 ≥ 8) :
    unpackSymbol acc n v = ([], topBuffer (decWindow acc n v), n + 5) :=
  if_neg h

/-- `DEC.CHAR` with a valid character and `DERR = 0` (R132). -/
theorem exec_decChar_valid (h : s.DecodeOk) (he : s.derr = false) {c : Byte} (hv : invalidSymbol c = false) :
    exec (.decChar c) s = .next (s.acceptSymbol (entryValue (decTab c))) :=
  exec_decChar_next_iff.mpr ⟨h, by simp [he, hv]⟩

/-- Settles O31: an invalid character raises the error, and for a valid one the slices and shifts of the data path are the
divisions and remainders of R132, in each of its two cases. -/
theorem decCharFollowsItsPseudocode : Obligations.DecCharFollowsItsPseudocode := by
  unfold Obligations.DecCharFollowsItsPseudocode
  refine ⟨decode_decChar_word, fun c s he hrecord hz => ?_⟩
  have hok : s.DecodeOk := State.decodeOk_iff_mod.mpr ⟨hz, fun _ => hrecord⟩
  refine ⟨fun hv => exec_decChar_invalid hok he (invalidSymbol_eq_true_iff.mpr hv), fun hv => ?_⟩
  rw [exec_decChar_valid hok he (invalidSymbol_eq_false_iff.mpr hv), State.acceptSymbol]
  simp only [← toNat_decWindow, ← toNat_dropByte, ← topBuffer_eq_ofNat, ← topByte_eq_ofNat]
  split_ifs with h
  · rw [unpackSymbol_of_le h]
    rfl
  · rw [unpackSymbol_of_lt h]
    simp [State.setBuffer, State.emitBytes]

/-! ### Whole messages -/

/-- The bits of a message that are in no complete byte are held, so its length tells both (R26, R140). -/
theorem lengths_of_decodeBody {vs : List Symbol} {bytes : List Byte} (h : streamOf vs = streamOf bytes ++ t.bufferBits) :
    bytes.length = 5 * vs.length / 8 ∧ t.dcnt.toNat = 5 * vs.length % 8 := by
  have hlen := congrArg List.length h
  rw [List.length_append, length_streamOf, length_streamOf, length_bufferBits] at hlen
  have := t.dcnt.isLt
  omega

/-- A decode message with an invalid character, from any state: the bytes before the first one, then its error; what follows it
is ignored (R133, R137). -/
theorem perform_decodeCommands_invalid (s : State) {pre : List Byte} {c : Byte} (hpre : AllValid pre)
    (hc : invalidSymbol c = true) (post : List Byte) :
    ∃ (bytes : List Byte) (t : State),
      perform (decodeCommands (pre ++ c :: post)) s = .next (t.raiseInvalidSymbol c) ∧
      t = { s with dacc := t.dacc, dcnt := t.dcnt, derr := false, derrb := 0x00#8
                   tokens := s.tokens ++ bytes.map fun b => ⟨.byte, b⟩ } ∧
      streamOf (symbolsOf pre) = streamOf bytes ++ t.bufferBits := by
  obtain ⟨bytes, t, ht, hframe, hbits, hok⟩ := perform_decodeBody s hpre
  have he : t.derr = false := by rw [hframe]
  have hfailed : (t.raiseInvalidSymbol c).DecodeOk := ⟨hok.1, nofun⟩
  refine ⟨bytes, t, ?_, hframe, hbits⟩
  calc perform (decodeCommands (pre ++ c :: post)) s
      = perform ((.decStart :: pre.map .decChar) ++ .decChar c :: (post.map .decChar ++ [.decEnd])) s := by
        simp [decodeCommands]
    _ = perform (post.map .decChar ++ [.decEnd]) (t.raiseInvalidSymbol c) := by
        rw [perform_append_of_next ht, perform_cons_of_next (exec_decChar_invalid hok he hc)]
    _ = .next (t.raiseInvalidSymbol c) := by
        rw [perform_append_of_next (perform_decChars_failed hfailed rfl post),
          perform_cons_of_next (exec_decEnd_failed hfailed rfl), perform_nil]

/-- Settles O36: the bytes are the whole ones among the bits of the characters before `DEC.END` or the first invalid one
(R140). -/
theorem decodeTokenCount : Obligations.DecodeTokenCount := by
  unfold Obligations.DecodeTokenCount
  refine ⟨fun s cs hvalid => ?valid, fun s pre post c hpre hc => ?invalid⟩
  case valid =>
    obtain ⟨bytes, t, ht, hframe, hbits, hok⟩ := perform_decodeBody s hvalid
    have hend := exec_decEnd_running hok (by rw [hframe])
    refine ⟨t, _, bytes, ht, hend, by rw [hframe], rfl, ?_⟩
    simpa using (lengths_of_decodeBody hbits).1
  case invalid =>
    obtain ⟨bytes, t, ht, hframe, hbits⟩ := perform_decodeCommands_invalid s hpre hc post
    refine ⟨_, bytes, ht, ?_, ?_⟩
    · rw [State.raiseInvalidSymbol_tokens, hframe]
    · simpa [symbolsOf] using (lengths_of_decodeBody hbits).1

/-! ### The leftover -/

/-- An encode message, from any state: the bits of its symbols are the message's, zero-padded to whole groups (R152). -/
theorem perform_encodeCommands (s : State) (bs : List Byte) :
    ∃ vs : List Symbol, perform (encodeCommands bs) s = .next
        { s with ecarry := 0x00#8, ecnt := 0#3, tokens := s.tokens ++ vs.map fun v => ⟨.char, alpha v⟩ } ∧
      streamOf vs = streamOf bs ++ List.replicate (padBits (8 * bs.length)) false := by
  obtain ⟨vs, t, ht, hframe, hbits, hok⟩ := perform_encodeBody s bs
  obtain ⟨ws, hend, hlast⟩ := exec_encEnd_spec hok
  obtain ⟨-, hcnt⟩ := lengths_of_encodeBody hbits hok
  refine ⟨vs ++ ws, ?_, ?_⟩
  · rw [encodeCommands, ← List.cons_append, perform_append_of_next ht, perform_cons_of_next hend, perform_nil, hframe,
      List.append_assoc, List.map_append]
  · rw [streamOf_append, hlast, ← List.append_assoc, ← hbits, hcnt, padBits]

/-- What `encode` returns, when its tokens are known (R150). -/
theorem encodeFrom_of_perform {bs : List Byte} {vs : List Symbol} (h : perform (encodeCommands bs) s = .next t)
    (ht : t.tokens = s.tokens ++ vs.map fun v => ⟨.char, alpha v⟩) : encodeFrom s bs = some (vs.map alpha) := by
  simp only [encodeFrom, h, newTokens_of_append ht, dataOf_map_same]

theorem allValid_map_alpha (vs : List Symbol) : AllValid (vs.map alpha) := by
  simp [AllValid]

/-- Decoding the symbols of a message, zero-padded to whole groups, leaves the padding: it is too short for a byte. -/
theorem bufferBits_eq_padding {bs bytes : List Byte} {n : Nat}
    (h : streamOf bs ++ List.replicate (padBits n) false = streamOf bytes ++ t.bufferBits) :
    t.bufferBits = List.replicate (padBits n) false := by
  have hshort : (List.replicate (padBits n) false).length < 8 := by
    rw [List.length_replicate, padBits]
    omega
  obtain rfl : bs = bytes := by
    rw [← cut_streamOf_append bs hshort, h, cut_streamOf_append bytes (length_bufferBits_lt t)]
  exact (List.append_cancel_left h).symm

/-- Settles O39: the leftover is the bits in no complete byte, and those of an encoded message are its padding (R138). -/
theorem leftoverByMessageLength : Obligations.LeftoverByMessageLength := by
  unfold Obligations.LeftoverByMessageLength
  refine ⟨fun s cs hvalid => ?leftover, fun s bs => ?padding⟩
  case leftover =>
    obtain ⟨bytes, t, ht, hframe, hbits, hok⟩ := perform_decodeBody s hvalid
    refine ⟨t, ht, ?_, exec_decEnd_running hok (by rw [hframe])⟩
    simpa using (lengths_of_decodeBody hbits).2
  case padding =>
    obtain ⟨vs, henc, hvs⟩ := perform_encodeCommands s bs
    obtain ⟨bytes, t, ht, -, hbits, -⟩ := perform_decodeBody s (allValid_map_alpha vs)
    rw [map_entryValue_alpha, hvs] at hbits
    refine ⟨vs.map alpha, t, encodeFrom_of_perform henc rfl, allValid_map_alpha vs, ?_, ht, bufferBits_eq_padding hbits⟩
    have hlen : 5 * vs.length = 8 * bs.length + padBits (8 * bs.length) := by
      simpa using congrArg List.length hvs
    rw [List.length_map]
    rw [padBits] at hlen
    split_ifs <;> omega

/-! ### The status of the unit -/

/-- The operations that may change a status output (R88). -/
def WritesStatus (i : Instr) : Prop := i = .decStart ∨ ∃ c, i = .decChar c

/-- Every other operation keeps both error registers. -/
theorem exec_writesStatus_or_keeps {i : Instr} (h : exec i s = .next t) :
    WritesStatus i ∨ (t.derr = s.derr ∧ t.derrb = s.derrb) := by
  cases i with
  | decStart => exact .inl (.inl rfl)
  | decChar c => exact .inl (.inr ⟨c, rfl⟩)
  | encStart | lutS2c | lutC2s =>
    cases h
    exact .inr ⟨rfl, rfl⟩
  | encByte b =>
    obtain ⟨-, rfl⟩ := exec_encByte_next_iff.mp h
    exact .inr ⟨rfl, rfl⟩
  | encEnd =>
    obtain ⟨-, rfl⟩ := exec_encEnd_next_iff.mp h
    exact .inr ⟨rfl, rfl⟩
  | decEnd =>
    obtain ⟨-, rfl⟩ := exec_decEnd_next_iff.mp h
    split_ifs <;> exact .inr ⟨rfl, rfl⟩

/-- An operation that changes a status output is one that may (R88). -/
theorem writesStatus_of_exec {i : Instr} (h : exec i s = .next t)
    (hne : t.derrOut ≠ s.derrOut ∨ t.derrbOut ≠ s.derrbOut) : WritesStatus i :=
  (exec_writesStatus_or_keeps h).resolve_right fun ⟨hflag, hbyte⟩ =>
    hne.elim (· (congrArg BitVec.ofBool hflag)) (· hbyte)

/-- `DEC.CHAR` sets `DERR` on an invalid character and never clears it (R141). -/
theorem exec_decChar_derr {c : Byte} (h : exec (.decChar c) s = .next t) : t.derr = (s.derr || invalidSymbol c) := by
  obtain ⟨-, rfl⟩ := exec_decChar_next_iff.mp h
  cases he : s.derr <;> cases hv : invalidSymbol c <;> simp [he]

/-- Only `DEC.START` and `DEC.CHAR` change `DERR` (R88). -/
theorem exec_keeps_derr {i : Instr} (h : exec i s = .next t) (hi : ¬WritesStatus i) : t.derr = s.derr :=
  ((exec_writesStatus_or_keeps h).resolve_left hi).1

/-- Settles O37: the transitions operation by operation; a step changes a status output only through a reset or such an
operation (R141, R88). -/
theorem decodeStatusMachine : Obligations.DecodeStatusMachine := by
  unfold Obligations.DecodeStatusMachine
  refine ⟨⟨rfl, State.resetRegisters_derr⟩, fun i s t h => ?transitions, fun c s t he => ?failed, fun s => ⟨rfl, rfl⟩,
    fun i s t => writesStatus_of_exec, fun s t h hne => ?step⟩
  case transitions =>
    cases i with
    | decStart =>
      cases h
      rfl
    | decChar c => exact exec_decChar_derr h
    | encStart | encByte | encEnd | lutS2c | decEnd | lutC2s => exact exec_keeps_derr h (by simp [WritesStatus])
  case failed =>
    refine ⟨fun h => ?_, fun h => ?_⟩
    · simpa [he] using (exec_decChar_next_iff.mp h).2
    · simpa [he] using (exec_decEnd_next_iff.mp h).2
  case step =>
    rcases step_next_cases h with ⟨-, rfl⟩ | ⟨rest, hi, -⟩ | ⟨w, rest, i, hi, hw, hexec⟩
    · simp at hne
    · exact ⟨rest, .inl hi⟩
    · refine ⟨rest, .inr ⟨w, hi, ?_⟩⟩
      rcases writesStatus_of_exec hexec hne with rfl | ⟨c, rfl⟩
      · exact .inl hw
      · exact .inr ⟨c, hw⟩

end Sys2Proof.Machine
end

