-- ==== Sys2Proof/Proofs/Messages.lean ====
section
/-! SUPPORT. Proofs of the statements of spec/43_messages.md. A message is determined by the bits of its symbols and bytes, so
its closed form is read off the bits that the loops conserve (`encodeFrom_eq`, `decodeFrom_valid`, `decodeFrom_invalid`), and
the laws of R160 to R168 are facts about cutting bit strings. That two interleaved messages do not mix is one simulation
(`perform_filter_simulates`), used for either unit. -/

namespace Sys2Proof.Machine

variable {s t u : State}

/-! ### Cutting a bit string -/

/-- Values at the front of a string are the first ones cut from it. -/
theorem cut_streamOf_append_cut {n : Nat} (hn : 0 < n) (vs : List (BitVec n)) (l : List Bool) :
    cut n (streamOf vs ++ l) = vs ++ cut n l := by
  induction vs with
  | nil => rfl
  | cons v vs ih => rw [streamOf_cons, List.append_assoc, cut_bitsOf_append hn, ih, List.cons_append]

theorem cut_streamOf {n : Nat} (hn : 0 < n) (vs : List (BitVec n)) : cut n (streamOf vs) = vs := by
  simpa using cut_streamOf_append vs (r := []) hn

@[simp] theorem length_cut (n : Nat) (l : List Bool) : (cut n l).length = l.length / n := by simp [cut]

/-- Only the bits of the complete values matter. -/
theorem cut_take {n : Nat} (hn : 0 < n) (l : List Bool) : cut n (l.take (n * (l.length / n))) = cut n l := by
  obtain ⟨r, hr, -⟩ := streamOf_cut_append hn l
  have htake := List.prefix_iff_eq_take.mp ⟨r, hr⟩
  rw [length_streamOf, length_cut] at htake
  rw [← htake, cut_streamOf hn]

/-! ### `encode` in closed form -/

/-- `ENCODE` returns the characters of the closed form's symbols, and cutting the zero-padded message leaves no bit over. -/
theorem perform_encodeCommands_closed (s : State) (bs : List Byte) :
    perform (encodeCommands bs) s = .next
        { s with ecarry := 0x00#8, ecnt := 0#3, tokens := s.tokens ++ (closedEncode bs).map fun v => ⟨.char, alpha v⟩ } ∧
      streamOf (closedEncode bs) = streamOf bs ++ List.replicate (padBits (8 * bs.length)) false := by
  obtain ⟨vs, henc, hvs⟩ := perform_encodeCommands s bs
  obtain rfl : closedEncode bs = vs := by
    rw [closedEncode, length_streamOf, ← hvs, cut_streamOf (by decide)]
  exact ⟨henc, hvs⟩

theorem streamOf_closedEncode (bs : List Byte) :
    streamOf (closedEncode bs) = streamOf bs ++ List.replicate (padBits (8 * bs.length)) false :=
  (perform_encodeCommands_closed State.reset bs).2

theorem length_closedEncode (bs : List Byte) :
    5 * (closedEncode bs).length = 8 * bs.length + padBits (8 * bs.length) := by
  simpa using congrArg List.length (streamOf_closedEncode bs)

theorem encodeFrom_eq (s : State) (bs : List Byte) : encodeFrom s bs = some ((closedEncode bs).map alpha) :=
  encodeFrom_of_perform (perform_encodeCommands_closed s bs).1 rfl

/-- The symbol values computed by a sequence are known by the `CHAR` tokens it returns, since no two share a character. -/
theorem symbolsThrough_of_perform {is : List Instr} {vs : List Symbol} (h : perform is s = .next t)
    (ht : t.tokens = s.tokens ++ vs.map fun v => ⟨.char, alpha v⟩) : symbolsThrough is s = some vs := by
  obtain ⟨ws, hws, hchars⟩ := perform_symbolsThrough h
  have hdata : vs.map alpha = ws.map alpha :=
    calc vs.map alpha
        = dataOf .char (newTokens s t) := by rw [newTokens_of_append ht, dataOf_map_same]
      _ = ws.map alpha := by
          rw [dataOf, hchars, List.map_map]
          rfl
  rw [hws, alpha_injective.list_map hdata]

/-- Settles O50: the bits that the loop conserves are those of the closed form, and symbols are determined by their bits and
by their characters (R150, R151, R152). -/
theorem encodeClosedForm : Obligations.EncodeClosedForm := by
  unfold Obligations.EncodeClosedForm
  intro s bs
  obtain ⟨hperform, -⟩ := perform_encodeCommands_closed s bs
  have hsyms : encSymsFrom s bs = some (closedEncode bs) := symbolsThrough_of_perform hperform rfl
  refine ⟨hperform, encodeFrom_eq s bs, hsyms, ?_, length_closedEncode bs⟩
  rw [hsyms, encodeFrom_eq, Option.map_some, symbolsOf, map_entryValue_alpha]

/-! ### `decode` in closed form -/

/-- The bytes of a closed form are known by a split of the symbols' bits with a rest too short for one more. -/
theorem closedDecode_eq_of_bits {cs bytes : List Byte} {r : List Bool}
    (h : streamOf (symbolsOf cs) = streamOf bytes ++ r) (hr : r.length < 8) : closedDecode cs = bytes := by
  rw [closedDecode, h, cut_streamOf_append bytes hr]

theorem length_closedDecode (cs : List Byte) : (closedDecode cs).length = 5 * cs.length / 8 := by
  simp [closedDecode, symbolsOf]

theorem perform_decodeCommands_valid (s : State) {cs : List Byte} (h : AllValid cs) :
    perform (decodeCommands cs) s = .next
      { s with
        dacc := 0x00#7, dcnt := 0#3, derr := false, derrb := 0x00#8
        tokens := s.tokens ++ (closedDecode cs).map fun b => ⟨.byte, b⟩ } := by
  obtain ⟨bytes, t, ht, hframe, hbits, hok⟩ := perform_decodeBody s h
  have hend := exec_decEnd_running hok (by rw [hframe])
  rw [decodeCommands, ← List.cons_append, perform_append_of_next ht, perform_cons_of_next hend, perform_nil,
    closedDecode_eq_of_bits hbits (length_bufferBits_lt t), hframe]
  rfl

theorem perform_decodeCommands_invalid_closed (s : State) {pre : List Byte} {c : Byte} (hpre : AllValid pre)
    (hc : invalidSymbol c = true) (post : List Byte) :
    ∃ t, perform (decodeCommands (pre ++ c :: post)) s = .next t ∧ t.derr = true ∧ t.derrb = c ∧ SameEncode s t ∧
      t.tokens = s.tokens ++ (closedDecode pre).map (fun b => ⟨.byte, b⟩) ++ [⟨.err, c⟩] := by
  obtain ⟨bytes, t, ht, hframe, hbits⟩ := perform_decodeCommands_invalid s hpre hc post
  refine ⟨_, ht, rfl, rfl, ?_, ?_⟩
  · rw [hframe]
    exact ⟨rfl, rfl⟩
  · rw [State.raiseInvalidSymbol_tokens, closedDecode_eq_of_bits hbits (length_bufferBits_lt t), hframe]

theorem decodeFrom_of_perform {cs : List Byte} {l : List Token} (h : perform (decodeCommands cs) s = .next t)
    (ht : t.tokens = s.tokens ++ l) : decodeFrom s cs = some (decodeResult l) := by
  simp only [decodeFrom, h, newTokens_of_append ht]

theorem decodeFrom_valid (s : State) {cs : List Byte} (h : AllValid cs) :
    decodeFrom s cs = some (.ok (closedDecode cs)) := by
  rw [decodeFrom_of_perform (perform_decodeCommands_valid s h) rfl, decodeResult_bytes]

theorem decodeFrom_invalid (s : State) {pre : List Byte} {c : Byte} (hpre : AllValid pre) (hc : invalidSymbol c = true)
    (post : List Byte) : decodeFrom s (pre ++ c :: post) = some (.err (closedDecode pre) c) := by
  obtain ⟨t, ht, -, -, -, htokens⟩ := perform_decodeCommands_invalid_closed s hpre hc post
  rw [decodeFrom_of_perform ht (htokens.trans (List.append_assoc ..)), decodeResult_bytes_err]

/-- Settles O51: the bytes that the loop returns are those of the closed form, and after the first invalid character no command
does anything (R153, R154). -/
theorem decodeClosedForm : Obligations.DecodeClosedForm := by
  unfold Obligations.DecodeClosedForm
  exact ⟨fun s cs h => ⟨perform_decodeCommands_valid s h, decodeFrom_valid s h, length_closedDecode cs⟩,
    fun s pre post c hpre hc => ⟨perform_decodeCommands_invalid_closed s hpre hc post, decodeFrom_invalid s hpre hc post⟩⟩

/-! ### The round trip and the lengths -/

theorem padBits_lt (n : Nat) : padBits n < 5 := Nat.mod_lt _ (by decide)

/-- The characters of an encoded message hold its bits and fewer than 5 more. -/
theorem closedDecode_map_alpha_closedEncode (bs : List Byte) : closedDecode ((closedEncode bs).map alpha) = bs := by
  have hbits : streamOf (symbolsOf ((closedEncode bs).map alpha)) =
      streamOf bs ++ List.replicate (padBits (8 * bs.length)) false := by
    rw [symbolsOf, map_entryValue_alpha, streamOf_closedEncode]
  refine closedDecode_eq_of_bits hbits ?_
  rw [List.length_replicate]
  exact (padBits_lt _).trans (by decide)

/-- Settles O52: an encoded message is valid, and its padding is too short for a byte (R160). -/
theorem decodeOfEncodeIsTheMessage : Obligations.DecodeOfEncodeIsTheMessage := by
  unfold Obligations.DecodeOfEncodeIsTheMessage
  refine fun s s' bs => ⟨_, encodeFrom_eq s bs, ?_⟩
  rw [decodeFrom_valid s' (allValid_map_alpha _), closedDecode_map_alpha_closedEncode]

/-- Settles O53: the lengths of the two closed forms (R161). -/
theorem lengthLaws : Obligations.LengthLaws := by
  unfold Obligations.LengthLaws
  refine ⟨fun s bs => ⟨_, encodeFrom_eq s bs, ?_⟩, fun s cs h => ⟨_, decodeFrom_valid s h, length_closedDecode cs⟩⟩
  have hlen := length_closedEncode bs
  rw [padBits] at hlen
  rw [List.length_map]
  omega

/-! ### Invalid characters -/

theorem invalidSymbol_eq_beq (c : Byte) : invalidSymbol c = (decTab c == 0x00#6) := by
  rw [Bool.eq_iff_iff, invalidSymbol_iff, beq_iff_eq]

theorem find?_invalidSymbol_split {pre : List Byte} {c : Byte} (hpre : AllValid pre) (hc : invalidSymbol c = true)
    (post : List Byte) : (pre ++ c :: post).find? invalidSymbol = some c :=
  List.find?_eq_some_iff_append.mpr ⟨hc, pre, post, rfl, fun d hd => by rw [hpre d hd, Bool.not_false]⟩

/-- Settles O57: a message is valid or splits at its first invalid character, and either closed form shows the shape
(R165). -/
theorem decodeRejectsInvalidCharacters : Obligations.DecodeRejectsInvalidCharacters := by
  unfold Obligations.DecodeRejectsInvalidCharacters
  refine ⟨fun s cs => ?_, by decide⟩
  simp only [← invalidSymbol_iff, ← invalidSymbol_eq_beq]
  rcases valid_or_split cs with hvalid | ⟨pre, c, post, rfl, hpre, hc⟩
  · exact ⟨_, decodeFrom_valid s hvalid, ⟨nofun, fun ⟨c, hmem, hc⟩ => by simp [hvalid c hmem] at hc⟩, nofun⟩
  · refine ⟨_, decodeFrom_invalid s hpre hc post, iff_of_true ⟨_, _, rfl⟩ ⟨c, by simp, hc⟩, ?_⟩
    rintro _ _ ⟨⟩
    exact find?_invalidSymbol_split hpre hc post

/-! ### Characters with the same entry -/

theorem invalidSymbol_congr {c d : Byte} (h : decTab d = decTab c) : invalidSymbol d = invalidSymbol c := by
  rw [invalidSymbol, invalidSymbol, h]

/-- Replacing characters by others with the same entries leaves the sequence of entries. -/
theorem map_decTab_eq {R : Byte → Byte → Prop} (hR : ∀ {c d}, R c d → decTab d = decTab c) {cs cs' : List Byte}
    (h : List.Forall₂ R cs cs') : cs'.map decTab = cs.map decTab := by
  induction h with
  | nil => rfl
  | cons hcd _ ih => rw [List.map_cons, List.map_cons, hR hcd, ih]

theorem allValid_congr {cs cs' : List Byte} (h : cs'.map decTab = cs.map decTab) (hvalid : AllValid cs) : AllValid cs' := by
  intro d hd
  obtain ⟨c, hc, hcd⟩ := List.mem_map.mp (h ▸ List.mem_map_of_mem hd)
  rw [invalidSymbol_congr hcd.symm, hvalid c hc]

theorem closedDecode_congr {cs cs' : List Byte} (h : cs'.map decTab = cs.map decTab) :
    closedDecode cs' = closedDecode cs := by
  have hsyms : symbolsOf cs' = symbolsOf cs := by
    simpa [symbolsOf, Function.comp_def] using congrArg (List.map entryValue) h
  rw [closedDecode, closedDecode, hsyms]

/-- Replacing characters by others with the same entries gives the same bytes; and in the `Err` shape the first invalid
character is the one that stands where it stood. -/
theorem decodeFrom_forall₂ {R : Byte → Byte → Prop} (hR : ∀ {c d}, R c d → decTab d = decTab c) {cs cs' : List Byte}
    (h : List.Forall₂ R cs cs') :
    (∃ bytes, ∀ s, decodeFrom s cs = some (.ok bytes) ∧ decodeFrom s cs' = some (.ok bytes)) ∨
    (∃ bytes c d, R c d ∧ cs.find? invalidSymbol = some c ∧ cs'.find? invalidSymbol = some d ∧
      ∀ s, decodeFrom s cs = some (.err bytes c) ∧ decodeFrom s cs' = some (.err bytes d)) := by
  rcases valid_or_split cs' with hvalid' | ⟨pre', d, post', rfl, hvalid', hd⟩
  · have hmap := map_decTab_eq hR h
    refine .inl ⟨closedDecode cs, fun s => ⟨decodeFrom_valid s (allValid_congr hmap.symm hvalid'), ?_⟩⟩
    rw [decodeFrom_valid s hvalid', closedDecode_congr hmap]
  · have hmap := map_decTab_eq hR (List.forall₂_take_append _ _ _ h)
    obtain ⟨c, post, hcd, -, hrest⟩ := List.forall₂_cons_right_iff.mp (List.forall₂_drop_append _ _ _ h)
    rw [← List.take_append_drop pre'.length cs, hrest]
    have hvalid := allValid_congr hmap.symm hvalid'
    have hc : invalidSymbol c = true := by rw [← hd, invalidSymbol_congr (hR hcd)]
    refine .inr ⟨_, c, d, hcd, find?_invalidSymbol_split hvalid hc post, find?_invalidSymbol_split hvalid' hd post',
      fun s => ⟨decodeFrom_invalid s hvalid hc post, ?_⟩⟩
    rw [decodeFrom_invalid s hvalid' hd, closedDecode_congr hmap]

/-- A letter has the entry of the same letter in the other case (R47 (d)). -/
theorem decTab_of_caseVariant {c d : Byte} (h : CaseVariant c d) : decTab d = decTab c := by
  rcases h with rfl | ⟨hletter, rfl⟩
  · rfl
  · revert c
    decide

/-- Settles O54: a letter of the other case has the same entry, and the same entries decode alike (R162). -/
theorem decodeIgnoresCase : Obligations.DecodeIgnoresCase := by
  unfold Obligations.DecodeIgnoresCase
  intro s s' cs cs' h
  refine ⟨?position, ?result⟩
  case position =>
    have hentries := congrArg (List.findIdx? fun e => !entryValid e) (map_decTab_eq decTab_of_caseVariant h)
    rw [List.findIdx?_map, List.findIdx?_map] at hentries
    exact hentries.symm
  case result =>
    rcases decodeFrom_forall₂ decTab_of_caseVariant h with ⟨bytes, hok⟩ | ⟨bytes, c, d, hcd, hc, hd, herr⟩
    · exact ⟨_, _, (hok s).1, (hok s').2, rfl⟩
    · exact ⟨_, _, (herr s).1, (herr s').2, rfl, hcd, hc, hd⟩

/-- A look-alike has the entry of its digit (R45). -/
theorem decTab_of_lookAlike {c d : Byte} (h : LookAlike c d) : decTab d = decTab c := by
  rcases h with rfl | ⟨rfl, rfl | rfl⟩ | ⟨rfl, rfl | rfl | rfl | rfl⟩
  · rfl
  all_goals decide

/-- Only valid characters have look-alikes. -/
theorem eq_of_lookAlike_of_invalid {c d : Byte} (h : LookAlike c d) (hc : invalidSymbol c = true) : d = c := by
  rcases h with rfl | ⟨rfl, -⟩ | ⟨rfl, -⟩
  · rfl
  all_goals exact absurd hc (by decide)

/-- Settles O55: a look-alike has the same entry as its digit, and an invalid character is none (R163). -/
theorem decodeFoldsLookAlikes : Obligations.DecodeFoldsLookAlikes := by
  unfold Obligations.DecodeFoldsLookAlikes
  intro s s' cs cs' h
  rcases decodeFrom_forall₂ decTab_of_lookAlike h with ⟨bytes, hok⟩ | ⟨bytes, c, d, hcd, hc, -, herr⟩
  · exact ⟨_, (hok s).1, (hok s').2⟩
  · obtain rfl := eq_of_lookAlike_of_invalid hcd (List.find?_some hc)
    exact ⟨_, (herr s).1, (herr s').2⟩

/-! ### The joint of two messages -/

theorem allValid_append {xs ys : List Byte} (hx : AllValid xs) (hy : AllValid ys) : AllValid (xs ++ ys) :=
  List.forall_mem_append.mpr ⟨hx, hy⟩

theorem symbolsOf_append (xs ys : List Byte) : symbolsOf (xs ++ ys) = symbolsOf xs ++ symbolsOf ys := List.map_append

/-- The bits in no complete byte of the first message are the first bits of the second one's bytes. -/
theorem closedDecode_append (xs ys : List Byte) :
    ∃ r : List Bool, r.length = 5 * xs.length % 8 ∧
      closedDecode (xs ++ ys) = closedDecode xs ++ cut 8 (r ++ streamOf (symbolsOf ys)) := by
  obtain ⟨r, hbits, hr⟩ := streamOf_cut_append (n := 8) (by decide) (streamOf (symbolsOf xs))
  have hlen : 8 * (5 * xs.length / 8) + r.length = 5 * xs.length := by
    simpa [symbolsOf] using congrArg List.length hbits
  refine ⟨r, by omega, ?_⟩
  calc closedDecode (xs ++ ys)
      = cut 8 (streamOf (closedDecode xs) ++ (r ++ streamOf (symbolsOf ys))) := by
        rw [closedDecode, symbolsOf_append, streamOf_append, ← List.append_assoc, closedDecode, hbits]
    _ = closedDecode xs ++ cut 8 (r ++ streamOf (symbolsOf ys)) := cut_streamOf_append_cut (by decide) _ _

/-- One symbol more completes a byte exactly when at least 3 bits are left over. -/
theorem closedDecode_concat (cs : List Byte) (x : Byte) :
    ∃ l : List Byte, closedDecode (cs ++ [x]) = closedDecode cs ++ l ∧ l.length = (5 * cs.length % 8 + 5) / 8 := by
  obtain ⟨r, hr, happend⟩ := closedDecode_append cs [x]
  exact ⟨_, happend, by simp [hr, symbolsOf]⟩

/-- The closed form reads only the bits of the complete bytes. -/
theorem cut_complete_bytes (cs : List Byte) :
    cut 8 ((streamOf (symbolsOf cs)).take (8 * (5 * cs.length / 8))) = closedDecode cs := by
  have hlen : (streamOf (symbolsOf cs)).length = 5 * cs.length := by rw [length_streamOf, symbolsOf, List.length_map]
  rw [← hlen, cut_take (by decide), closedDecode]

/-- Settles O56: the symbol completes no byte or one, by the number of bits left over, and the closed form reads only the bits
of the complete bytes (R164). -/
theorem decodeIsLenientAboutTheTail : Obligations.DecodeIsLenientAboutTheTail := by
  unfold Obligations.DecodeIsLenientAboutTheTail
  refine ⟨fun s s' cs x hcs hx => ?symbol, fun s s' cs cs' hcs hcs' hlen hbits => ?bits⟩
  case symbol =>
    obtain ⟨l, happend, hl⟩ := closedDecode_concat cs x
    rw [decodeFrom_valid s (allValid_append hcs (List.forall_mem_singleton.mpr hx)), decodeFrom_valid s' hcs, happend]
    refine ⟨?_, fun h => ?_⟩
    · rw [Option.some_inj, DecodeResult.ok.injEq, List.append_right_eq_self, ← List.length_eq_zero_iff]
      omega
    · obtain ⟨b, rfl⟩ := List.length_eq_one_iff.mp (show l.length = 1 by omega)
      exact ⟨_, b, rfl, rfl⟩
  case bits =>
    rw [decodeFrom_valid s hcs, decodeFrom_valid s' hcs', ← cut_complete_bytes, hbits, hlen, cut_complete_bytes]

/-- No bits of an encoded message cross the joint after whole groups (R168). -/
theorem closedEncode_append {xs : List Byte} (h : xs.length % 5 = 0) (ys : List Byte) :
    closedEncode (xs ++ ys) = closedEncode xs ++ closedEncode ys := by
  have hx : padBits (8 * xs.length) = 0 := by
    rw [padBits]
    omega
  have hy : padBits (8 * (xs ++ ys).length) = padBits (8 * ys.length) := by
    rw [padBits, padBits, List.length_append]
    omega
  apply streamOf_injective (by decide)
  rw [streamOf_append, streamOf_closedEncode, streamOf_closedEncode, streamOf_closedEncode, hx, hy, streamOf_append,
    List.replicate_zero, List.append_nil, List.append_assoc]

/-- No bits of a valid message cross the joint after whole bytes (R168). -/
theorem closedDecode_append_of_length {xs : List Byte} (h : xs.length % 8 = 0) (ys : List Byte) :
    closedDecode (xs ++ ys) = closedDecode xs ++ closedDecode ys := by
  obtain ⟨r, hr, happend⟩ := closedDecode_append xs ys
  obtain rfl : r = [] := List.length_eq_zero_iff.mp (by omega)
  exact happend

/-- Settles O59: the closed forms concatenate where the first message leaves no bits over; the examples are computed
(R168). -/
theorem messagesConcatenate : Obligations.MessagesConcatenate := by
  unfold Obligations.MessagesConcatenate
  refine ⟨fun s x y h => ?encode, fun s x y hx hy h => ?decode, fun s => ?encodeExamples, fun s => ?decodeExamples⟩
  case encode =>
    refine ⟨_, _, encodeFrom_eq s x, encodeFrom_eq s y, ?_⟩
    rw [encodeFrom_eq, closedEncode_append h, List.map_append]
  case decode =>
    refine ⟨_, _, decodeFrom_valid s hx, decodeFrom_valid s hy, ?_⟩
    rw [decodeFrom_valid s (allValid_append hx hy), closedDecode_append_of_length h]
  case encodeExamples =>
    rw [encodeFrom_eq, encodeFrom_eq, encodeFrom_eq]
    decide
  case decodeExamples =>
    rw [decodeFrom_valid s (by decide), decodeFrom_valid s (by decide), decodeFrom_valid s (by decide)]
    decide

/-! ### Interleaved messages -/

/-- A unit's own commands, taken alone, do to its registers and return as its tokens what the whole sequence does: if each of
its commands reads only its registers and each other command leaves them and returns none of its tokens. -/
theorem perform_filter_simulates {mine : Instr → Bool} {Same : State → State → Prop} {returned : Token → Bool}
    (hown : ∀ {i : Instr} {s t u : State}, mine i = true → Same u s → exec i s = .next t →
      ∃ v, exec i u = .next v ∧ Same v t ∧ newTokens u v = (newTokens s t).filter returned)
    (hother : ∀ {i : Instr} {s t u : State}, mine i = false → Same u s → exec i s = .next t →
      Same u t ∧ (newTokens s t).filter returned = [])
    {is : List Instr} (hsame : Same u s) (h : perform is s = .next t) :
    ∃ v, perform (is.filter mine) u = .next v ∧ Same v t ∧ newTokens u v = (newTokens s t).filter returned := by
  induction is generalizing s u with
  | nil =>
    cases h
    exact ⟨u, rfl, hsame, by simp [newTokens]⟩
  | cons i is ih =>
    obtain ⟨s', hexec, hrest⟩ := perform_cons_next_iff.mp h
    have hsplit := newTokens_trans (exec_tokens hexec) (perform_tokens hrest)
    cases hi : mine i with
    | true =>
      obtain ⟨u', hu, hsame', htokens⟩ := hown hi hsame hexec
      obtain ⟨v, hv, hsame'', htokens'⟩ := ih hsame' hrest
      refine ⟨v, ?_, hsame'', ?_⟩
      · rw [List.filter_cons_of_pos hi, perform_cons_of_next hu, hv]
      · rw [newTokens_trans (exec_tokens hu) (perform_tokens hv), htokens, htokens', hsplit, List.filter_append]
    | false =>
      obtain ⟨hsame', hnone⟩ := hother hi hsame hexec
      obtain ⟨v, hv, hsame'', htokens⟩ := ih hsame' hrest
      refine ⟨v, ?_, hsame'', ?_⟩
      · rw [List.filter_cons_of_neg (by simp [hi]), hv]
      · rw [htokens, hsplit, List.filter_append, hnone, List.nil_append]

/-- An encode command reads only the encode registers, and all its tokens are `CHAR` tokens. -/
theorem exec_encode_of_same {i : Instr} (hi : i.isEnc = true) (hsame : SameEncode u s) (h : exec i s = .next t) :
    ∃ v, exec i u = .next v ∧ SameEncode v t ∧ newTokens u v = (newTokens s t).filter fun tok => tok.kind == .char := by
  obtain ⟨hcarry, hcnt⟩ := hsame
  have hok : s.EncodeOk → u.EncodeOk := by simp only [State.EncodeOk, hcarry, hcnt, imp_self]
  rw [exec_symbolsMade h]
  cases i with
  | encStart =>
    cases (exec_encStart s).symm.trans h
    exact ⟨_, exec_encStart u, ⟨rfl, rfl⟩, newTokens_of_append (List.append_nil _).symm⟩
  | encByte b =>
    obtain ⟨hs, rfl⟩ := exec_encByte_next_iff.mp h
    rw [symbolsMade, hcarry, hcnt]
    exact ⟨_, exec_encByte_next_iff.mpr ⟨hok hs, rfl⟩, ⟨rfl, rfl⟩, newTokens_of_append rfl⟩
  | encEnd =>
    obtain ⟨hs, rfl⟩ := exec_encEnd_next_iff.mp h
    rw [symbolsMade, State.lastGroup, hcarry, hcnt]
    exact ⟨_, exec_encEnd_next_iff.mpr ⟨hok hs, rfl⟩, ⟨rfl, rfl⟩, newTokens_of_append rfl⟩
  | lutS2c | decStart | decChar | decEnd | lutC2s => cases hi

/-- Any other command leaves the encode registers and returns no `CHAR` token. -/
theorem exec_other_keeps_encode {i : Instr} (hi : i.isEnc = false) (hsame : SameEncode u s) (h : exec i s = .next t) :
    SameEncode u t ∧ ((newTokens s t).filter fun tok => tok.kind == .char) = [] := by
  rw [exec_symbolsMade h]
  cases i with
  | encStart | encByte | encEnd => cases hi
  | lutS2c | decStart | lutC2s =>
    cases h
    exact ⟨hsame, rfl⟩
  | decChar c =>
    obtain ⟨-, rfl⟩ := exec_decChar_next_iff.mp h
    split_ifs <;> exact ⟨hsame, rfl⟩
  | decEnd =>
    obtain ⟨-, rfl⟩ := exec_decEnd_next_iff.mp h
    split_ifs <;> exact ⟨hsame, rfl⟩

@[simp] theorem filter_byteTokens (bs : List Byte) :
    ((bs.map fun b => (⟨.byte, b⟩ : Token)).filter fun tok => tok.kind == .byte || tok.kind == .err) =
      bs.map fun b => ⟨.byte, b⟩ :=
  List.filter_eq_self.mpr (by simp)

/-- A decode command reads only the decode registers, and all its tokens are `BYTE` or `ERR` tokens. -/
theorem exec_decode_of_same {i : Instr} (hi : i.isDec = true) (hsame : SameDecode u s) (h : exec i s = .next t) :
    ∃ v, exec i u = .next v ∧ SameDecode v t ∧
      newTokens u v = (newTokens s t).filter fun tok => tok.kind == .byte || tok.kind == .err := by
  have ⟨hacc, hcnt, herr, herrb⟩ := hsame
  have hok : s.DecodeOk → u.DecodeOk := by simp only [State.DecodeOk, hacc, hcnt, herr, herrb, imp_self]
  cases i with
  | encStart | encByte | encEnd | lutS2c | lutC2s => cases hi
  | decStart =>
    cases (exec_decStart s).symm.trans h
    exact ⟨_, exec_decStart u, ⟨rfl, rfl, rfl, rfl⟩, by simp [newTokens]⟩
  | decChar c =>
    obtain ⟨hs, rfl⟩ := exec_decChar_next_iff.mp h
    refine ⟨_, exec_decChar_next_iff.mpr ⟨hok hs, rfl⟩, ?_⟩
    rw [herr]
    split_ifs
    · exact ⟨hsame, by simp [newTokens]⟩
    · exact ⟨⟨hacc, hcnt, rfl, rfl⟩, by simp [newTokens]⟩
    · simp [newTokens, SameDecode, hacc, hcnt, herr, herrb]
  | decEnd =>
    obtain ⟨hs, rfl⟩ := exec_decEnd_next_iff.mp h
    refine ⟨_, exec_decEnd_next_iff.mpr ⟨hok hs, rfl⟩, ?_⟩
    rw [herr]
    split_ifs
    · exact ⟨hsame, by simp [newTokens]⟩
    · exact ⟨⟨rfl, rfl, herr, herrb⟩, by simp [newTokens]⟩

/-- Any other command leaves the decode registers and returns neither a `BYTE` nor an `ERR` token. -/
theorem exec_other_keeps_decode {i : Instr} (hi : i.isDec = false) (hsame : SameDecode u s) (h : exec i s = .next t) :
    SameDecode u t ∧ ((newTokens s t).filter fun tok => tok.kind == .byte || tok.kind == .err) = [] := by
  cases i with
  | decStart | decChar | decEnd => cases hi
  | encStart | lutS2c | lutC2s =>
    cases h
    exact ⟨hsame, by simp [newTokens]⟩
  | encByte b =>
    obtain ⟨-, rfl⟩ := exec_encByte_next_iff.mp h
    exact ⟨hsame, by simp [newTokens]⟩
  | encEnd =>
    obtain ⟨-, rfl⟩ := exec_encEnd_next_iff.mp h
    exact ⟨hsame, by simp [newTokens]⟩

/-- Settles O60: the commands of one unit alone simulate the interleaving on that unit's registers and tokens (R169). -/
theorem interleavedMessagesDoNotMix : Obligations.InterleavedMessagesDoNotMix := by
  unfold Obligations.InterleavedMessagesDoNotMix
  exact fun is s t h =>
    ⟨perform_filter_simulates exec_encode_of_same exec_other_keeps_encode ⟨rfl, rfl⟩ h,
      perform_filter_simulates exec_decode_of_same exec_other_keeps_decode ⟨rfl, rfl, rfl, rfl⟩ h⟩

end Sys2Proof.Machine
end

