-- ==== Sys2Proof/Proofs/Exceptions.lean ====
section
/-! SUPPORT. Proofs of the statements of spec/60_exceptions.md: the bytes that raise InvalidSymbol (R181), and that nothing but
`DEC.START` or a reset ends the error state (R186). -/

namespace Sys2Proof.Machine

variable {s t u : State}

/-! ### The bytes that raise InvalidSymbol -/

set_option maxRecDepth 4000 in
/-- The bytes with an invalid entry: those outside the digits and the letters, and the reserved letter in either case (R181). -/
theorem invalidSymbol_iff_ranges {c : Byte} :
    invalidSymbol c = true ↔
      c.toNat ≤ 0x2F ∨ (0x3A ≤ c.toNat ∧ c.toNat ≤ 0x40) ∨ c.toNat = 0x55 ∨ (0x5B ≤ c.toNat ∧ c.toNat ≤ 0x60) ∨
        c.toNat = 0x75 ∨ 0x7B ≤ c.toNat := by
  revert c
  decide

/-- Settles O35: a running unit's `DEC.CHAR` raises the error on the bytes with an invalid entry, which are counted row by row
(R181). -/
theorem bytesThatRaiseInvalidSymbol : Obligations.BytesThatRaiseInvalidSymbol := by
  unfold Obligations.BytesThatRaiseInvalidSymbol
  refine ⟨fun c s hok he => ?raises, ?count⟩
  case raises =>
    have hexec := (exec_decChar_next_iff (c := c)).mpr ⟨hok, rfl⟩
    refine ⟨_, hexec, ?_⟩
    rw [exec_decChar_derr hexec, he, Bool.false_or]
    exact invalidSymbol_iff_ranges
  case count =>
    exact (countP_decTab fun e => !entryValid e).trans (by decide)

/-! ### The error state -/

/-- In the error state `DEC.CHAR` and `DEC.END` do nothing, and no command outside the decode unit reaches its registers or
returns its tokens (R186). -/
theorem exec_failed_keeps_decode {i : Instr} (hi : i ≠ .decStart) (he : u.derr = true) (hsame : SameDecode u s)
    (h : exec i s = .next t) :
    SameDecode u t ∧ ((newTokens s t).filter fun tok => tok.kind == .byte || tok.kind == .err) = [] := by
  have ⟨_, _, herr, _⟩ := hsame
  have hs : s.derr = true := herr.trans he
  cases i with
  | decStart => exact absurd rfl hi
  | decChar c =>
    obtain rfl : t = s := by simpa [hs] using (exec_decChar_next_iff.mp h).2
    exact ⟨hsame, by simp [newTokens]⟩
  | decEnd =>
    obtain rfl : t = s := by simpa [hs] using (exec_decEnd_next_iff.mp h).2
    exact ⟨hsame, by simp [newTokens]⟩
  | encStart | encByte | encEnd | lutS2c | lutC2s => exact exec_other_keeps_decode rfl hsame h

/-- A whole sequence without `DEC.START`, in the error state (R186). -/
theorem perform_failed_keeps_decode {is : List Instr} (hstart : .decStart ∉ is) (he : u.derr = true) (hsame : SameDecode u s)
    (h : perform is s = .next t) :
    SameDecode u t ∧ ((newTokens s t).filter fun tok => tok.kind == .byte || tok.kind == .err) = [] := by
  induction is generalizing s with
  | nil =>
    cases h
    exact ⟨hsame, by simp [newTokens]⟩
  | cons i is ih =>
    obtain ⟨hi, his⟩ := List.ne_and_not_mem_of_not_mem_cons hstart
    obtain ⟨v, hexec, hrest⟩ := perform_cons_next_iff.mp h
    obtain ⟨hv, hnone⟩ := exec_failed_keeps_decode (Ne.symm hi) he hsame hexec
    obtain ⟨ht, hnone'⟩ := ih his hv hrest
    refine ⟨ht, ?_⟩
    rw [newTokens_trans (exec_tokens hexec) (perform_tokens hrest), List.filter_append, hnone, hnone', List.append_nil]

/-- Tokens of a kind are among those that a coarser filter keeps. -/
theorem dataOf_eq_nil_of_filter {k : TokenKind} {p : Token → Bool} (hp : ∀ tok : Token, tok.kind = k → p tok = true)
    {ts : List Token} (h : ts.filter p = []) : dataOf k ts = [] := by
  have hkind : (ts.filter fun tok => tok.kind == k) = [] :=
    List.filter_eq_nil_iff.mpr fun tok htok hk => List.filter_eq_nil_iff.mp h tok htok (hp tok (beq_iff_eq.mp hk))
  rw [dataOf, hkind, List.map_nil]

/-- Settles O38: every other command keeps the decode registers, by induction over the sequence; `DEC.START` and reset clear
them (R186). -/
theorem errorIsStickyUntilDecStart : Obligations.ErrorIsStickyUntilDecStart := by
  unfold Obligations.ErrorIsStickyUntilDecStart
  refine ⟨fun is s t he hstart h => ?sticky, fun s => ⟨⟨_, exec_decStart s, rfl, rfl, rfl, rfl⟩, rfl, rfl, rfl, rfl⟩⟩
  case sticky =>
    obtain ⟨hsame, hnone⟩ := perform_failed_keeps_decode hstart he ⟨rfl, rfl, rfl, rfl⟩ h
    exact ⟨hsame, dataOf_eq_nil_of_filter (fun _ hk => by simp [hk]) hnone,
      dataOf_eq_nil_of_filter (fun _ hk => by simp [hk]) hnone⟩

end Sys2Proof.Machine
end

/-! SUPPORT. Proofs of the statements about the machine as a whole: a command word and its operation (R72, R76), one step and a
run (spec/20_memory.md section 5, spec/70_reset_and_hazards.md), the separation of the two units (R34), the layout invariant
(R21 to R28), the counts (R24, R26), the canonical texts (R167) and the textual form of commands (R85). A step is reduced to one
operation by `step_idle`, `step_reset` and `step_command`; what an operation keeps follows unit by unit. -/

namespace Sys2Proof.Machine

variable {s t : State}

/-! ### A word and its operation -/

/-- The word of `LUT.S2C` by opcode and data: three zeros, then the symbol value (R76, R81). -/
theorem encode_lutS2c_of_data {d : Byte} (h : d.extractLsb 7 5 = 0b000#3) :
    encode (.lutS2c (d.extractLsb 4 0)) = 0x3#4 ++ d := by
  revert d
  decide

/-- The opcodes and data of the legal words (R80, R81). -/
theorem reasonAt_eq_none_iff {op : BitVec 4} {d : Byte} :
    reasonAt op d = none ↔
      (OperandlessOpcode op ∧ d = 0x00#8) ∨ (op = 0x3#4 ∧ d.extractLsb 7 5 = 0b000#3) ∨
        op = 0x1#4 ∨ op = 0x5#4 ∨ op = 0x7#4 := by
  by_cases hd : d = 0x00#8 <;> by_cases hv : d.extractLsb 7 5 = 0b000#3 <;>
    simp only [reasonAt, hd, hv] <;> revert op <;> decide

/-- The word of `LUT.S2C` as R100 writes it. -/
theorem encode_lutS2c (v : Symbol) : encode (.lutS2c v) = 0x300#12 + v.setWidth 12 := by
  revert v
  decide

/-- Decoding reads back the operation and its operand. -/
theorem decode_encode (i : Instr) : decode (encode i) = .legal i := by
  cases i with
  | encStart | encEnd | decStart | decEnd => rfl
  | encByte | decChar | lutC2s => exact decode_append rfl
  | lutS2c v => rw [encode_lutS2c, decode_lutS2c_word]

/-- The word of the operation that a legal opcode and its data select is that opcode and data. -/
theorem encode_operation {op : BitVec 4} {d : Byte} (h : reasonAt op d = none) :
    encode (Fields.operation ⟨op.getLsbD 3, Side.ofBit (op.getLsbD 2), Fn.ofBits (op.extractLsb 1 0), d⟩) = op ++ d := by
  rcases reasonAt_eq_none_iff.mp h with ⟨rfl | rfl | rfl | rfl, rfl⟩ | ⟨rfl, hzeros⟩ | rfl | rfl | rfl
  case inr.inl => exact encode_lutS2c_of_data hzeros
  all_goals rfl

theorem encode_of_decode {w : CommandWord} {i : Instr} (h : decode w = .legal i) : encode i = w := by
  obtain ⟨op, d, rfl⟩ := exists_opcode_append w
  cases hr : reasonAt op d with
  | none =>
    rw [decode_append hr, Verdict.legal.injEq] at h
    rw [← h, encode_operation hr]
  | some why => simp [decode, defect_append, hr] at h

/-- Settles O1: encoding then decoding is by operation, decoding then encoding by opcode (R71, R72, R73, R76). -/
theorem decodeEncodeAgree : Obligations.DecodeEncodeAgree := by
  unfold Obligations.DecodeEncodeAgree
  exact fun w i => ⟨encode_of_decode, fun h => h ▸ decode_encode i⟩

/-- Settles O5: each of the nine words is the encoding of its command. -/
theorem specCommandWordsDecode : Obligations.SpecCommandWordsDecode := by
  unfold Obligations.SpecCommandWordsDecode
  exact ⟨decode_encode .encStart, decode_encode (.encByte 0x66#8), decode_encode .encEnd, decode_encode (.lutS2c 12#5),
    decode_encode (.lutS2c 31#5), decode_encode .decStart, decode_encode (.decChar 0x43#8), decode_encode .decEnd,
    decode_encode (.lutC2s 0x75#8)⟩

/-! ### The rows of the opcode map -/

/-- A word whose top bits are given is those bits followed by its low ones. -/
theorem exists_append_of_and_mask {n m : Nat} {w : BitVec (n + m)} {p : BitVec n}
    (h : w &&& (BitVec.allOnes n ++ 0#m) = p ++ 0#m) : ∃ y : BitVec m, p ++ y = w := by
  refine ⟨w.setWidth m, BitVec.eq_of_getLsbD_eq fun i hi => ?_⟩
  have hbit := congrArg (fun x => x.getLsbD i) h
  simp only [BitVec.getLsbD_and, BitVec.getLsbD_append, BitVec.getLsbD_zero, BitVec.getLsbD_allOnes] at hbit
  rw [BitVec.getLsbD_append, BitVec.getLsbD_setWidth]
  split_ifs at hbit ⊢ with hlow
  · simp [hlow]
  · have hhigh : i - m < n := by omega
    simpa [hhigh] using hbit.symm

/-- A row is selected only by the words of its operation. -/
theorem exists_encode_of_selects {r : Row} {w : CommandWord} (hr : r ∈ opcodeTable) (h : r.selects w = true) :
    ∃ i : Instr, encode i = w ∧ i.row = r := by
  have hall : w &&& 0xFFF#12 = w := BitVec.and_allOnes
  simp only [opcodeTable, List.mem_cons, List.not_mem_nil, or_false] at hr
  rcases hr with rfl | rfl | rfl | rfl | rfl | rfl | rfl | rfl <;> rw [Row.selects, beq_iff_eq] at h
  · exact ⟨.encStart, h.symm.trans hall, rfl⟩
  · obtain ⟨b, hb⟩ := exists_append_of_and_mask (n := 4) (m := 8) (p := 0x1#4) h
    exact ⟨.encByte b, hb, rfl⟩
  · exact ⟨.encEnd, h.symm.trans hall, rfl⟩
  · obtain ⟨v, hv⟩ := exists_append_of_and_mask (n := 7) (m := 5) (p := 0b0011000#7) h
    exact ⟨.lutS2c v, hv, rfl⟩
  · exact ⟨.decStart, h.symm.trans hall, rfl⟩
  · obtain ⟨c, hc⟩ := exists_append_of_and_mask (n := 4) (m := 8) (p := 0x5#4) h
    exact ⟨.decChar c, hc, rfl⟩
  · exact ⟨.decEnd, h.symm.trans hall, rfl⟩
  · obtain ⟨b, hb⟩ := exists_append_of_and_mask (n := 4) (m := 8) (p := 0x7#4) h
    exact ⟨.lutC2s b, hb, rfl⟩

/-- The word of an operation selects the operation's own row. -/
theorem row_selects_encode (i : Instr) : i.row.selects (encode i) = true := by
  cases i with
  | encStart => exact Laws.EncodesToItsRow.encStart
  | encByte b => exact Laws.EncodesToItsRow.encByte b
  | encEnd => exact Laws.EncodesToItsRow.encEnd
  | lutS2c v => exact Laws.EncodesToItsRow.lutS2c v
  | decStart => exact Laws.EncodesToItsRow.decStart
  | decChar c => exact Laws.EncodesToItsRow.decChar c
  | decEnd => exact Laws.EncodesToItsRow.decEnd
  | lutC2s b => exact Laws.EncodesToItsRow.lutC2s b

/-- No two rows of the map are equal, and each operation has one. -/
theorem filter_row (i : Instr) : opcodeTable.filter (· == i.row) = [i.row] := by
  cases i <;> rfl

theorem selects_encode_iff {r : Row} (hr : r ∈ opcodeTable) (i : Instr) : r.selects (encode i) = true ↔ r = i.row := by
  constructor
  · intro h
    obtain ⟨j, hj, rfl⟩ := exists_encode_of_selects hr h
    have hverdict : Verdict.legal j = .legal i := by rw [← decode_encode j, hj, decode_encode i]
    rw [Verdict.legal.inj hverdict]
  · rintro rfl
    exact row_selects_encode i

/-- Settles O2: a row is selected by the words of its operation and no others, and those decode (R76). -/
theorem opcodeRowsAreDisjoint : Obligations.OpcodeRowsAreDisjoint := by
  unfold Obligations.OpcodeRowsAreDisjoint
  intro w
  cases hd : decode w with
  | legal i =>
    obtain rfl := encode_of_decode hd
    change opcodeTable.filter (fun r => r.selects (encode i)) = [i.row]
    rw [← filter_row i]
    exact List.filter_congr fun r hr => Bool.eq_iff_iff.mpr ((selects_encode_iff hr i).trans beq_iff_eq.symm)
  | reserved why =>
    refine List.filter_eq_nil_iff.mpr fun r hr h => ?_
    obtain ⟨i, rfl, -⟩ := exists_encode_of_selects hr h
    simp [decode_encode] at hd

/-! ### One step -/

theorem step_idle (h : s.inputs = []) : step s = .next s := by
  rw [step, fetch_idle h]

theorem step_reset {rest : List Event} (h : s.inputs = .reset :: rest) :
    step s = .next ({ s with inputs := rest } : State).resetRegisters := by
  rw [step, fetch_reset h]

theorem step_command {w : CommandWord} {rest : List Event} {i : Instr} (h : s.inputs = .command w :: rest)
    (hw : decode w = .legal i) : step s = exec i { s with inputs := rest } := by
  simp only [step, fetch_command h, hw]

/-- Settles O6: the step of an issued command (R60, R70, R72). -/
theorem stepPerformsTheDecodedCommand : Obligations.StepPerformsTheDecodedCommand := by
  unfold Obligations.StepPerformsTheDecodedCommand
  exact fun s w rest i => step_command

/-- Settles O7: the step with nothing issued (R191). -/
theorem blockIsIdleBetweenCommands : Obligations.BlockIsIdleBetweenCommands := by
  unfold Obligations.BlockIsIdleBetweenCommands
  exact fun s => step_idle

/-- Settles O8: the step of the reset event, and the state after reset, register by register (R200). -/
theorem resetZeroesTheRegisters : Obligations.ResetZeroesTheRegisters := by
  unfold Obligations.ResetZeroesTheRegisters
  exact ⟨fun s rest => step_reset, rfl, rfl, rfl, rfl, rfl, rfl⟩

/-- Settles O9: the two START operations clear between them what the reset clears (R201). -/
theorem resetIsBothStarts : Obligations.ResetIsBothStarts := by
  unfold Obligations.ResetIsBothStarts
  refine fun s rest h => ⟨_, step_reset h, ?_, rfl⟩
  rw [perform_cons_of_next (exec_encStart _), perform_cons_of_next (exec_decStart _)]
  rfl

/-! ### Placing a word -/

theorem decodeTableWord_encode {nbits : Nat} (h : 12 ≤ nbits) (i : Instr) :
    decodeTableWord nbits (encode i).toNat = some i := by
  simp only [decodeTableWord, tableWord_toNat h, decode_encode]

theorem step_withFetchWord_encode {nbits : Nat} (h : 12 ≤ nbits) (i : Instr) (s : State) :
    step (s.withFetchWord nbits (encode i).toNat) = exec i s := by
  rw [State.withFetchWord, tableWord_toNat h]
  exact step_command (State.issueFirst_inputs s _) (decode_encode i)

/-- Settles O11: a word given as a number of 12 bits or more is that word, and it stands first in the queue. -/
theorem placedWordIsPerformedNext : Obligations.PlacedWordIsPerformedNext := by
  unfold Obligations.PlacedWordIsPerformedNext
  exact fun i s => ⟨decodeTableWord_encode (by decide) i, decodeTableWord_encode (by decide) i,
    step_withFetchWord_encode (by decide) i s, step_withFetchWord_encode (by decide) i s⟩

/-! ### Runs -/

/-- A run goes on from the state that its first step answers. -/
theorem run_succ_of_next {k : Nat} (h : step s = .next t) : core.run (k + 1) s = core.run k t := by
  have hstep : core.step s = .next t := h
  simp only [Host.Core.run, hstep]

theorem run_succ_of_refused {k : Nat} {r : Refusal} (h : step s = .refused r) : core.run (k + 1) s = .refused r := by
  have hstep : core.step s = .refused r := h
  simp only [Host.Core.run, hstep]

theorem perform_cons_of_refused {i : Instr} {is : List Instr} {r : Refusal} (h : exec i s = .refused r) :
    perform (i :: is) s = .refused r := by simp only [perform, h]

theorem exec_withInputs_of_next {i : Instr} (h : exec i s = .next t) (q : List Event) :
    exec i { s with inputs := q } = .next { t with inputs := q } := by rw [exec_withInputs, h]

theorem exec_withInputs_of_refused {i : Instr} {r : Refusal} (h : exec i s = .refused r) (q : List Event) :
    exec i { s with inputs := q } = .refused r := by rw [exec_withInputs, h]

/-- Settles O12: by induction on the commands, since no operation reads or writes the queue (R60, R61). -/
theorem runPerformsCommandsInOrder : Obligations.RunPerformsCommandsInOrder := by
  unfold Obligations.RunPerformsCommandsInOrder
  intro is rest
  induction is with
  | nil =>
    rintro s rfl
    rfl
  | cons i is ih =>
    intro s h
    have hstep := step_command h (decode_encode i)
    cases hexec : exec i s with
    | next u =>
      rw [exec_withInputs_of_next hexec] at hstep
      rw [List.length_cons, run_succ_of_next hstep, perform_cons_of_next (exec_withInputs_of_next hexec rest)]
      exact ih _ rfl
    | fault f => cases f
    | refused r =>
      rw [exec_withInputs_of_refused hexec] at hstep
      rw [List.length_cons, run_succ_of_refused hstep, perform_cons_of_refused (exec_withInputs_of_refused hexec rest)]
      rfl

/-- Settles O14: a step is idle, a reset, which returns nothing, or an operation, which appends (R61, R211). -/
theorem tokensAreOnlyAppended : Obligations.TokensAreOnlyAppended := by
  unfold Obligations.TokensAreOnlyAppended
  intro s t h
  rcases step_next_cases h with ⟨-, rfl⟩ | ⟨rest, -, rfl⟩ | ⟨w, rest, i, hi, -, hexec⟩
  · exact ⟨List.prefix_rfl, fun hne => absurd rfl hne⟩
  · exact ⟨List.prefix_rfl, fun hne => absurd rfl hne⟩
  · exact ⟨⟨_, (exec_tokens hexec).symm⟩, fun _ => ⟨w, rest, hi, exec_inputs hexec⟩⟩

/-- Settles O49: the list is written at one place, with what the step of that block answers (R62). -/
theorem instancesAreIsolated : Obligations.InstancesAreIsolated := by
  unfold Obligations.InstancesAreIsolated
  refine fun all k => ⟨fun t h => by rw [stepInstance, h], fun all' h => ?_⟩
  rw [stepInstance] at h
  split at h <;> cases h
  exact ⟨List.length_set, fun j hj => List.getElem?_set_ne hj.symm⟩

/-! ### The two units -/

theorem sameEncode_symm (h : SameEncode s t) : SameEncode t s :=
  ⟨h.1.symm, h.2.symm⟩

theorem sameDecode_symm (h : SameDecode s t) : SameDecode t s := by
  obtain ⟨hacc, hcnt, herr, herrb⟩ := h
  exact ⟨hacc.symm, hcnt.symm, herr.symm, herrb.symm⟩

theorem isDec_eq_false_of_isEnc {i : Instr} (h : i.isEnc = true) : i.isDec = false := by
  cases i with
  | encStart | encByte | encEnd => rfl
  | lutS2c | decStart | decChar | decEnd | lutC2s => cases h

theorem isEnc_eq_false_of_isDec {i : Instr} (h : i.isDec = true) : i.isEnc = false := by
  cases i with
  | decStart | decChar | decEnd => rfl
  | encStart | encByte | encEnd | lutS2c | lutC2s => cases h

/-- An encode command returns nothing but `CHAR` tokens. -/
theorem filter_char_of_exec_encode {i : Instr} (hi : i.isEnc = true) (h : exec i s = .next t) :
    ((newTokens s t).filter fun tok => tok.kind == .char) = newTokens s t := by
  obtain ⟨v, hv, -, htokens⟩ := exec_encode_of_same hi ⟨rfl, rfl⟩ h
  cases hv.symm.trans h
  exact htokens.symm

/-- A decode command returns nothing but `BYTE` and `ERR` tokens. -/
theorem filter_byte_err_of_exec_decode {i : Instr} (hi : i.isDec = true) (h : exec i s = .next t) :
    ((newTokens s t).filter fun tok => tok.kind == .byte || tok.kind == .err) = newTokens s t := by
  obtain ⟨v, hv, -, htokens⟩ := exec_decode_of_same hi ⟨rfl, rfl, rfl, rfl⟩ h
  cases hv.symm.trans h
  exact htokens.symm

/-- A command outside the encode unit keeps its registers. -/
theorem exec_sameEncode {i : Instr} (hi : i.isEnc = false) (h : exec i s = .next t) : SameEncode s t :=
  (exec_other_keeps_encode hi ⟨rfl, rfl⟩ h).1

/-- A command outside the decode unit keeps its registers. -/
theorem exec_sameDecode {i : Instr} (hi : i.isDec = false) (h : exec i s = .next t) : SameDecode s t :=
  (exec_other_keeps_decode hi ⟨rfl, rfl, rfl, rfl⟩ h).1

/-- Settles O40: no operation touches the queue, and the operations of one unit leave the other's registers (R34). -/
theorem unitsAreDisjoint : Obligations.UnitsAreDisjoint := by
  unfold Obligations.UnitsAreDisjoint
  refine fun i s t h => ⟨exec_inputs h, fun hi => exec_sameEncode hi h, fun hi => exec_sameDecode hi h, ?_⟩
  rintro rfl
  exact (exec_writesStatus_or_keeps h).resolve_left (by simp [WritesStatus])

/-- Settles O41: each command finds its own unit's registers as it would without the other command before it (R34). -/
theorem encodeAndDecodeCommute : Obligations.EncodeAndDecodeCommute := by
  unfold Obligations.EncodeAndDecodeCommute
  intro e d s u t he hd hu ht
  have he' := isDec_eq_false_of_isEnc he
  have hd' := isEnc_eq_false_of_isDec hd
  obtain ⟨u', hu', hdec, htokens_d⟩ := exec_decode_of_same hd (exec_sameDecode he' hu) ht
  obtain ⟨t', ht', henc, htokens_e⟩ := exec_encode_of_same he (sameEncode_symm (exec_sameEncode hd' hu')) hu
  refine ⟨u', t', hu', ht', sameEncode_symm (exec_other_keeps_encode hd' henc ht).1,
    (exec_other_keeps_decode he' (sameDecode_symm hdec) ht').1, ?_, ?_⟩
  · rw [htokens_e, filter_char_of_exec_encode he hu]
  · rw [htokens_d, filter_byte_err_of_exec_decode hd ht]

/-! ### The layout invariant -/

/-- What the invariant says of the decode registers. -/
def DecodeInv (s : State) : Prop := s.DecodeOk ∧ s.ErrorRecordOk

theorem encodeOk_of_sameEncode (hsame : SameEncode s t) (h : s.EncodeOk) : t.EncodeOk := by
  obtain ⟨hcarry, hcnt⟩ := hsame
  rwa [State.EncodeOk, hcarry, hcnt]

theorem decodeInv_of_sameDecode (hsame : SameDecode s t) (h : DecodeInv s) : DecodeInv t := by
  obtain ⟨hacc, hcnt, herr, herrb⟩ := hsame
  rwa [DecodeInv, State.DecodeOk, State.ErrorRecordOk, hacc, hcnt, herr, herrb]

theorem encodeOk_of_clear (hcarry : s.ecarry = 0x00#8) (hcnt : s.ecnt = 0#3) : s.EncodeOk := by
  simp [State.EncodeOk, hcarry, hcnt]

/-- The three ways of `DEC.CHAR`, by the checks in their order (R135). -/
theorem exec_decChar_cases {c : Byte} (h : exec (.decChar c) s = .next t) :
    (s.derr = true ∧ t = s) ∨ (s.derr = false ∧ invalidSymbol c = true ∧ t = s.raiseInvalidSymbol c) ∨
      (s.derr = false ∧ invalidSymbol c = false) := by
  obtain ⟨-, ht⟩ := exec_decChar_next_iff.mp h
  cases he : s.derr <;> cases hv : invalidSymbol c <;> simp_all

/-- The two ways of `DEC.END` (R136, R137). -/
theorem exec_decEnd_cases (h : exec .decEnd s = .next t) :
    (s.derr = true ∧ t = s) ∨ (s.derr = false ∧ t = s.clearBuffer) := by
  obtain ⟨-, ht⟩ := exec_decEnd_next_iff.mp h
  cases he : s.derr <;> simp_all

/-- `ENC.START` and `ENC.END` clear the carry, `ENC.BYTE` keeps it zero-filled, and the others leave it (R21, R24). -/
theorem exec_keeps_encodeOk {i : Instr} (hs : s.EncodeOk) (h : exec i s = .next t) : t.EncodeOk := by
  cases i with
  | encStart =>
    cases h
    exact encodeOk_of_clear rfl rfl
  | encByte b => exact (exec_encByte_carry h).1
  | encEnd =>
    obtain ⟨-, rfl⟩ := exec_encEnd_next_iff.mp h
    exact encodeOk_of_clear rfl rfl
  | lutS2c | decStart | decChar | decEnd | lutC2s => exact encodeOk_of_sameEncode (exec_sameEncode rfl h) hs

/-- `DEC.CHAR` keeps the buffer zero-filled or records the invalid character, `DEC.START` and `DEC.END` clear the buffer, and
the others leave the unit (R25, R28). -/
theorem exec_keeps_decodeInv {i : Instr} (hs : DecodeInv s) (h : exec i s = .next t) : DecodeInv t := by
  have ⟨hok, hrecord⟩ := hs
  cases i with
  | decStart =>
    cases h
    exact ⟨⟨rfl, fun _ => rfl⟩, nofun⟩
  | decChar c =>
    rcases exec_decChar_cases h with ⟨-, rfl⟩ | ⟨-, hv, rfl⟩ | ⟨he, hv⟩
    · exact hs
    · exact ⟨⟨hok.1, nofun⟩, fun _ => hv⟩
    · obtain ⟨bytes, u, hu, hframe, -, hok', -⟩ := exec_decChar_spec hok he hv
      cases hu.symm.trans h
      have he' : t.derr = false := by rw [hframe]; exact he
      exact ⟨hok', fun herr => absurd herr (by simp [he'])⟩
  | decEnd =>
    rcases exec_decEnd_cases h with ⟨-, rfl⟩ | ⟨-, rfl⟩
    · exact hs
    · exact ⟨⟨rfl, hok.2⟩, hrecord⟩
  | encStart | encByte | encEnd | lutS2c | lutC2s => exact decodeInv_of_sameDecode (exec_sameDecode rfl h) hs

theorem exec_keeps_inv {i : Instr} (hs : s.Inv) (h : exec i s = .next t) : t.Inv :=
  ⟨exec_keeps_encodeOk hs.1 h, exec_keeps_decodeInv hs.2 h⟩

theorem inv_resetRegisters (s : State) : s.resetRegisters.Inv := by
  simp [State.Inv, State.EncodeOk, State.DecodeOk, State.ErrorRecordOk]

theorem step_keeps_inv (hs : s.Inv) (h : step s = .next t) : t.Inv := by
  rcases step_next_cases h with ⟨-, rfl⟩ | ⟨rest, -, rfl⟩ | ⟨w, rest, i, -, -, hexec⟩
  · exact hs
  · exact inv_resetRegisters _
  · exact exec_keeps_inv (s := { s with inputs := rest }) hs hexec

/-- Settles O42: a step is idle, a reset or an operation, and an operation keeps either unit's part (R21, R24, R25, R28). -/
theorem stepKeepsTheInvariant : Obligations.StepKeepsTheInvariant := by
  unfold Obligations.StepKeepsTheInvariant
  exact fun s t => step_keeps_inv

/-- Settles O43: the state after reset is a reset one (R33). -/
theorem resetMeetsTheInvariant : Obligations.ResetMeetsTheInvariant := by
  unfold Obligations.ResetMeetsTheInvariant
  exact inv_resetRegisters State.reset

/-! ### Which commands complete -/

theorem exec_completes (hs : s.Inv) (i : Instr) : ∃ t, exec i s = .next t := by
  obtain ⟨henc, hdec, -⟩ := hs
  cases i with
  | encStart => exact ⟨_, exec_encStart s⟩
  | encByte b => exact ⟨_, exec_encByte_next_iff.mpr ⟨henc, rfl⟩⟩
  | encEnd => exact ⟨_, exec_encEnd_next_iff.mpr ⟨henc, rfl⟩⟩
  | lutS2c v => exact ⟨_, exec_lutS2c v s⟩
  | decStart => exact ⟨_, exec_decStart s⟩
  | decChar c => exact ⟨_, exec_decChar_next_iff.mpr ⟨hdec, rfl⟩⟩
  | decEnd => exact ⟨_, exec_decEnd_next_iff.mpr ⟨hdec, rfl⟩⟩
  | lutC2s b => exact ⟨_, exec_lutC2s b s⟩

/-- Settles O44: the invariant is the precondition of either unit (R118, R139). -/
theorem legalCommandsComplete : Obligations.LegalCommandsComplete := by
  unfold Obligations.LegalCommandsComplete
  exact fun i s hs => exec_completes hs i

/-- Settles O46: the operations that read a unit's registers check them first (D16). -/
theorem unreachableStatesAreRefused : Obligations.UnreachableStatesAreRefused := by
  unfold Obligations.UnreachableStatesAreRefused
  exact fun b s => ⟨fun h => ⟨if_neg h, if_neg h⟩, fun h => ⟨if_neg h, if_neg h⟩⟩

/-- What the environment may issue: a reset or a legal command (R12). -/
def LegalEvent (e : Event) : Prop := e = .reset ∨ ∃ i, e = .command (encode i)

/-- In a state that meets the invariant a step takes any legal event. -/
theorem step_completes (hs : s.Inv) (hlegal : ∀ e ∈ s.inputs, LegalEvent e) :
    ∃ t, step s = .next t ∧ t.inputs = s.inputs.tail := by
  cases hq : s.inputs with
  | nil => exact ⟨s, step_idle hq, hq⟩
  | cons e rest =>
    rcases hlegal e (by simp [hq]) with rfl | ⟨i, rfl⟩
    · exact ⟨_, step_reset hq, rfl⟩
    · obtain ⟨t, ht⟩ := exec_completes (s := { s with inputs := rest }) hs i
      exact ⟨t, (step_command hq (decode_encode i)).trans ht, exec_inputs ht⟩

/-- Settles O45: every step of the run completes and keeps the invariant, by induction on its length (R12, R118, R139). -/
theorem legalSequencesRunToTheEnd : Obligations.LegalSequencesRunToTheEnd := by
  unfold Obligations.LegalSequencesRunToTheEnd
  intro k
  induction k with
  | zero => exact fun s hs _ => ⟨s, rfl, hs, rfl⟩
  | succ k ih =>
    intro s hs hlegal
    obtain ⟨t, ht, hq⟩ := step_completes hs hlegal
    obtain ⟨u, hu, hinv, hrest⟩ := ih t (step_keeps_inv hs ht) fun e he => hlegal e (List.mem_of_mem_tail (hq ▸ he))
    exact ⟨u, (run_succ_of_next ht).trans hu, hinv, by rw [hrest, hq, List.drop_tail]⟩

/-! ### The counts -/

/-- Zero counts with zero counters. -/
theorem countsTracked_zero (he : s.ecnt = 0#3) (hd : s.dcnt = 0#3) : CountsTracked s Counters.zero := by
  simp [CountsTracked, Counters.zero, he, hd]

/-- `DEC.CHAR` with a valid character and `DERR = 0` holds 5 bits more, modulo 8 (R26). -/
theorem exec_decChar_dcnt {c : Byte} (he : s.derr = false) (hv : invalidSymbol c = false)
    (h : exec (.decChar c) s = .next t) : t.dcnt.toNat = (s.dcnt.toNat + 5) % 8 := by
  obtain ⟨bytes, u, hu, -, -, -, hcnt⟩ := exec_decChar_spec (exec_decChar_next_iff.mp h).1 he hv
  cases hu.symm.trans h
  exact hcnt

/-- Every operation keeps the counts in step with the counters: a data operation adds its bits, and where a count is cleared its
counter is cleared with it (R24, R26). -/
theorem exec_keeps_countsTracked {g : Counters} {i : Instr} (hc : CountsTracked s g) (h : exec i s = .next t) :
    CountsTracked t (g.after i s t) := by
  have ⟨henc, hdec⟩ := hc
  cases i with
  | encStart =>
    cases h
    exact ⟨rfl, hdec⟩
  | encByte b =>
    obtain ⟨-, hcnt, -⟩ := exec_encByte_carry h
    obtain ⟨-, hdcnt, -⟩ := exec_sameDecode rfl h
    refine ⟨?_, by rw [hdcnt]; exact hdec⟩
    simp only [Counters.after]
    omega
  | encEnd =>
    obtain ⟨-, rfl⟩ := exec_encEnd_next_iff.mp h
    exact ⟨rfl, hdec⟩
  | lutS2c | lutC2s =>
    cases h
    exact hc
  | decStart =>
    cases h
    exact ⟨henc, rfl⟩
  | decChar c =>
    rcases exec_decChar_cases h with ⟨he, rfl⟩ | ⟨-, hv, rfl⟩ | ⟨he, hv⟩
    · simpa [Counters.after, he] using hc
    · simpa [CountsTracked, Counters.after, hv] using hc
    · have hcnt := exec_decChar_dcnt he hv h
      obtain ⟨-, hecnt⟩ := exec_sameEncode rfl h
      refine ⟨by simpa [Counters.after, he, hv, hecnt] using henc, ?_⟩
      simp only [Counters.after, he, hv, and_self, if_true]
      omega
  | decEnd =>
    rcases exec_decEnd_cases h with ⟨he, rfl⟩ | ⟨he, rfl⟩
    · simpa [Counters.after, he] using hc
    · simpa [CountsTracked, Counters.after, he] using henc

/-- Settles O48: an idle step changes nothing, a reset clears counts and counters, and an operation keeps them in step; the
bound is the invariant's (R24, R26). -/
theorem countsFollowTheMessageLength : Obligations.CountsFollowTheMessageLength := by
  unfold Obligations.CountsFollowTheMessageLength
  refine ⟨countsTracked_zero rfl rfl, fun s t g hs hc h => ⟨?tracked, ?bound⟩⟩
  case tracked =>
    rcases step_counters_cases g h with ⟨rfl, hg⟩ | ⟨rest, rfl, hg⟩ | ⟨rest, i, hi, hg⟩ <;> rw [hg]
    · exact hc
    · exact countsTracked_zero rfl rfl
    · exact exec_keeps_countsTracked hc hi
  case bound =>
    obtain ⟨⟨hle, -⟩, -⟩ := step_keeps_inv hs h
    exact hle

/-! ### Canonical texts -/

/-- Only a valid text decodes to the shape `Ok`, and its bytes are those of the closed form (R153). -/
theorem of_decodeFrom_ok {cs bytes : List Byte} (h : decodeFrom s cs = some (.ok bytes)) :
    AllValid cs ∧ closedDecode cs = bytes := by
  rcases valid_or_split cs with hvalid | ⟨pre, c, post, rfl, hpre, hc⟩
  · rw [decodeFrom_valid s hvalid] at h
    exact ⟨hvalid, by simpa using h⟩
  · simp [decodeFrom_invalid s hpre hc post] at h

/-- A text of canonical characters is the one that its symbol values are written with. -/
theorem map_alpha_symbolsOf {cs : List Byte} (h : ∀ c ∈ cs, ∃ v, c = alpha v) : (symbolsOf cs).map alpha = cs := by
  rw [symbolsOf, List.map_map]
  refine (List.map_congr_left fun c hc => ?_).trans (List.map_id cs)
  obtain ⟨v, rfl⟩ := h c hc
  exact congrArg alpha (entryValue_decTab_alpha v)

/-- Symbol values are written as a text exactly when it is canonical and they are its values. -/
theorem map_alpha_eq_iff {vs : List Symbol} {cs : List Byte} :
    vs.map alpha = cs ↔ (∀ c ∈ cs, ∃ v, c = alpha v) ∧ vs = symbolsOf cs := by
  constructor
  · rintro rfl
    exact ⟨fun c hc => (List.mem_map.mp hc).imp fun v hv => hv.2.symm, (map_entryValue_alpha vs).symm⟩
  · rintro ⟨hcanonical, rfl⟩
    exact map_alpha_symbolsOf hcanonical

/-- The bits of a text are those of its bytes, then the leftover. -/
theorem streamOf_symbolsOf_split (cs : List Byte) :
    streamOf (symbolsOf cs) =
      streamOf (closedDecode cs) ++ (streamOf (symbolsOf cs)).drop (8 * (5 * cs.length / 8)) := by
  obtain ⟨r, hbits, -⟩ := streamOf_cut_append (n := 8) (by decide) (streamOf (symbolsOf cs))
  have hprefix : streamOf (closedDecode cs) <+: streamOf (symbolsOf cs) := ⟨r, hbits⟩
  have htake := List.prefix_iff_eq_take.mp hprefix
  rw [length_streamOf, length_closedDecode] at htake
  rw [htake, List.take_append_drop]

/-- The leftover has the length of the padding exactly for the lengths that the encoder produces (R138, R167). -/
theorem leftover_length_eq_padBits_iff (m : Nat) :
    5 * m - 8 * (5 * m / 8) = padBits (8 * (5 * m / 8)) ↔
      m % 8 = 0 ∨ m % 8 = 2 ∨ m % 8 = 4 ∨ m % 8 = 5 ∨ m % 8 = 7 := by
  rw [padBits]
  omega

/-- Encoding the bytes of a text gives its symbol values exactly when the leftover is the padding. -/
theorem closedEncode_closedDecode_eq_iff {cs : List Byte} :
    closedEncode (closedDecode cs) = symbolsOf cs ↔
      (streamOf (symbolsOf cs)).drop (8 * (5 * cs.length / 8)) =
        List.replicate (padBits (8 * (5 * cs.length / 8))) false := by
  calc closedEncode (closedDecode cs) = symbolsOf cs
      ↔ streamOf (closedEncode (closedDecode cs)) = streamOf (symbolsOf cs) :=
        ⟨congrArg streamOf, streamOf_injective (by decide)⟩
    _ ↔ streamOf (closedDecode cs) ++ List.replicate (padBits (8 * (5 * cs.length / 8))) false =
          streamOf (closedDecode cs) ++ (streamOf (symbolsOf cs)).drop (8 * (5 * cs.length / 8)) := by
        rw [← streamOf_symbolsOf_split, streamOf_closedEncode, length_closedDecode]
    _ ↔ _ := (List.append_right_inj _).trans eq_comm

/-- Settles O58: the text is canonical and its symbol values are those of its bytes zero-padded, which is that the leftover is
the padding: of its length, and zero (R167). -/
theorem encodeOfDecodeIsCanonical : Obligations.EncodeOfDecodeIsCanonical := by
  unfold Obligations.EncodeOfDecodeIsCanonical
  intro s s' cs bytes h
  obtain ⟨-, rfl⟩ := of_decodeFrom_ok h
  have hlen : (streamOf (symbolsOf cs)).length = 5 * cs.length := by rw [length_streamOf, symbolsOf, List.length_map]
  rw [encodeFrom_eq, Option.some_inj, map_alpha_eq_iff, closedEncode_closedDecode_eq_iff, List.eq_replicate_iff,
    List.length_drop, hlen, leftover_length_eq_padBits_iff]

/-! ### The text of commands -/

namespace Text

/-- A byte written as a number is read back, after a blank (R85). -/
theorem lastOperand_hexByte (b : Byte) : lastOperand (' ' :: hexByte b) = some b := by
  revert b
  decide

/-- A blank ends a word (R85). -/
theorem takeWhile_inWord_of_blank {name : List Char} (h : name.all inWord = true) (rest : List Char) :
    (name ++ ' ' :: rest).takeWhile inWord = name := by
  rw [List.takeWhile_append_of_pos (List.all_eq_true.mp h), List.takeWhile_cons_of_neg (by decide), List.append_nil]

/-- A command begins with its mnemonic, which a blank or the end of the line ends (R76, R85). -/
theorem takeWhile_inWord_write (i : Instr) : (write i).takeWhile inWord = i.row.mnemonic.toList := by
  cases i with
  | encStart | encEnd | decStart | decEnd => rfl
  | encByte b => exact takeWhile_inWord_of_blank (name := "ENC.BYTE".toList) (by decide) (hexByte b)
  | lutS2c v => exact takeWhile_inWord_of_blank (name := "LUT.S2C".toList) (by decide) (hexByte (v.setWidth 8))
  | decChar c => exact takeWhile_inWord_of_blank (name := "DEC.CHAR".toList) (by decide) (hexByte c)
  | lutC2s b => exact takeWhile_inWord_of_blank (name := "LUT.C2S".toList) (by decide) (hexByte b)

/-- The operand of `LUT.S2C`, which the line takes if it is a symbol value. -/
def symbolCommand (v : Byte) : Option (List Instr) := if v.toNat < 32 then some [.lutS2c (v.setWidth 5)] else none

theorem symbolCommand_setWidth (v : Symbol) : symbolCommand (v.setWidth 8) = some [.lutS2c v] := by
  have hv : (v.setWidth 8).toNat < 32 := by
    rw [BitVec.toNat_setWidth]
    omega
  rw [symbolCommand, if_pos hv, BitVec.setWidth_setWidth (by decide), BitVec.setWidth_eq]

/-- A command written with its operand is read back: its mnemonic selects it, and the rest of the line is the operand. -/
theorem line_write (i : Instr) : line (write i) = some [i] := by
  cases i with
  | encStart | encEnd | decStart | decEnd => rfl
  | encByte b => exact congrArg (Option.map fun b => [Instr.encByte b]) (lastOperand_hexByte b)
  | lutS2c v =>
    exact (congrArg (Option.bind · symbolCommand) (lastOperand_hexByte (v.setWidth 8))).trans (symbolCommand_setWidth v)
  | decChar c => exact congrArg (Option.map fun c => [Instr.decChar c]) (lastOperand_hexByte c)
  | lutC2s b => exact congrArg (Option.map fun b => [Instr.lutC2s b]) (lastOperand_hexByte b)

end Text

/-- Settles O15: mnemonic and operand are read back apart, and the examples of R85 are computed (R85, R86). -/
theorem textStandsForCommands : Obligations.TextStandsForCommands := by
  unfold Obligations.TextStandsForCommands
  refine ⟨fun i => ⟨Text.takeWhile_inWord_write i, Text.line_write i⟩, ?_, ?_, ?_, ?_⟩ <;> decide

end Sys2Proof.Machine
